-- ==== Sys2Proof/Word.lean ====
section
/-!
DEFINITION. The word types of PNGME-CRC32 (R8), the three byte buffers (R60) and the host transaction record (R97).
-/

namespace Sys2Proof

/-- One buffer element: one 8-bit byte (R8). -/
abbrev Byte := BitVec 8

/-- One register, one command word, one bus address or one bus datum: 32 bits (R8, R97). -/
abbrev Word := BitVec 32

/-- The three byte-addressed spaces IN, CPAY and OUT (R60); the fourth space, REG, is not made of bytes. -/
inductive Buf
  | inBuf
  | cpay
  | out
  deriving DecidableEq, Repr

/-- One HOSTBUS record (R97): `kind` is SPACE and WE, `addr` a register offset or a byte address, `wdata` the written
value (ignored by reads). -/
structure HostBus where
  kind  : BitVec 3
  addr  : Word
  wdata : Word
  deriving DecidableEq, Repr

end Sys2Proof
end

