-- ==== Sys2Proof/Config.lean ====
section
/-!
DEFINITION. The parameters of an instance (R5 to R7, R9): IN_CAP is open, CPAY_CAP and OUT_CAP follow from it.
-/

namespace Sys2Proof

/-- What one instance fixes: the capacity IN_CAP of the input buffer (R5, D4). The model carries it in `State.cfg`, which
no step writes, so a statement about every state is a statement about every IN_CAP (log entry 3). -/
structure Config where
  inCap : Nat
  deriving DecidableEq, Repr

namespace Config

/-- CPAY_CAP equals IN_CAP (R6). -/
def cpayCap (c : Config) : Nat := c.inCap

/-- OUT_CAP equals IN_CAP + 12 (R7). -/
def outCap (c : Config) : Nat := c.inCap + 12

/-- The capacity of each buffer (R60). -/
def cap (c : Config) : Buf → Nat
  | .inBuf => c.inCap
  | .cpay  => c.cpayCap
  | .out   => c.outCap

/-- The reference configuration IN_CAP = 65548 (R9). -/
def reference : Config := { inCap := 65548 }

end Config

end Sys2Proof
end

