-- ==== Sys2Proof/Syntax.lean ====
section
/-!
DEFINITION. The instruction set: one constructor per row of spec/opcode_table.json (R92, R98).
-/

namespace Sys2Proof

/-- The nine commands of the CMD format, which carry no operand field (R91), and the eight host transactions of the
HOSTBUS format with the operands their kind uses (R97, R98): a read has no `wdata`. -/
inductive Instr
  /-- CMD word 0x00000000 (R151). -/
  | nop
  /-- CMD word 0x00000001 (R112). -/
  | tagFromBytes
  /-- CMD word 0x00000002 (R113). -/
  | tagFromText
  /-- CMD word 0x00000003 (R141). -/
  | chunkNew
  /-- CMD word 0x00000004 (R142). -/
  | decode
  /-- CMD word 0x00000005 (R145). -/
  | serialize
  /-- CMD word 0x00000006 (R149). -/
  | utf8Check
  /-- CMD word 0x00000007 (R196). -/
  | crcInit
  /-- CMD word 0x00000008 (R197). -/
  | crcFeed
  /-- HOSTBUS kind 0b000 (R221). -/
  | regRd (addr : Word)
  /-- HOSTBUS kind 0b001 (R222). -/
  | regWr (addr wdata : Word)
  /-- HOSTBUS kind 0b010 (R223). -/
  | inRd (addr : Word)
  /-- HOSTBUS kind 0b011 (R224). -/
  | inWr (addr wdata : Word)
  /-- HOSTBUS kind 0b100 (R225). -/
  | cpayRd (addr : Word)
  /-- HOSTBUS kind 0b101 (R226). -/
  | cpayWr (addr wdata : Word)
  /-- HOSTBUS kind 0b110 (R227). -/
  | outRd (addr : Word)
  /-- HOSTBUS kind 0b111 (R228). -/
  | outWr (addr wdata : Word)
  deriving DecidableEq, Repr

end Sys2Proof
end

