-- ==== Sys2Proof/WellFormed.lean ====
section
/-!
DEFINITION. What makes an instruction and a configuration legal. (The checks of a host program line, R100 and R101, stand
beside its syntax in Machine/HostProgram.lean.)
-/

namespace Sys2Proof

/-- Every instruction is well formed: a command has no operand field (R91), every 32-bit address and every 32-bit
datum is admitted by the record (R97), and an address or a value the port does not accept is refused when the
transaction runs (R17), not by the encoding. One arm per constructor, so that a new one cannot slip past. -/
def Instr.wellFormed : Instr → Bool
  | .nop => true
  | .tagFromBytes => true
  | .tagFromText => true
  | .chunkNew => true
  | .decode => true
  | .serialize => true
  | .utf8Check => true
  | .crcInit => true
  | .crcFeed => true
  | .regRd _ => true
  | .regWr _ _ => true
  | .inRd _ => true
  | .inWr _ _ => true
  | .cpayRd _ => true
  | .cpayWr _ _ => true
  | .outRd _ => true
  | .outWr _ _ => true

/-- 12 <= IN_CAP <= 2^32 - 13 (R5). -/
abbrev Config.wellFormed (c : Config) : Prop := 12 ≤ c.inCap ∧ c.inCap ≤ 2 ^ 32 - 13

end Sys2Proof
end

