-- ==== Sys2Proof/Decode.lean ====
section
/-!
DEFINITION. The two encodings of 30_encoding.md: the CMD word (R90 to R94) and the HOSTBUS record (R97, R98); the decoder,
total on every word and every record, and after it the encoder.
-/

namespace Sys2Proof

/-- The nine commands of R92, each a word of the CMD format. -/
inductive Command
  | nop
  | tagFromBytes
  | tagFromText
  | chunkNew
  | decode
  | serialize
  | utf8Check
  | crcInit
  | crcFeed
  deriving DecidableEq, Repr

/-- Why a word written to CMD is illegal (R93); either way it executes as `fail(IllegalCommand)`. -/
inductive DecodeError
  /-- bits 31:8 are not 0; this check is made first. -/
  | reservedBits
  /-- bits 31:8 are 0 and OPC is in 0x09 to 0xFF. -/
  | unassignedOpcode
  deriving DecidableEq, Repr

/-- An encoded instruction: a word of the CMD format (R91) or a record of the HOSTBUS format (R97). -/
inductive Encoded
  | cmd (w : Word)
  | hostBus (t : HostBus)
  deriving DecidableEq, Repr

/-- Each command as the instruction of the opcode table it is. -/
def Command.toInstr : Command → Instr
  | .nop => .nop
  | .tagFromBytes => .tagFromBytes
  | .tagFromText => .tagFromText
  | .chunkNew => .chunkNew
  | .decode => .decode
  | .serialize => .serialize
  | .utf8Check => .utf8Check
  | .crcInit => .crcInit
  | .crcFeed => .crcFeed

/-! ### The CMD format -/

/-- OPC, bits 7:0 of a command word (R91). -/
def opc (w : Word) : BitVec 8 := w.extractLsb' 0 8

/-- RSVD, bits 31:8 of a command word (R91). -/
def rsvd (w : Word) : BitVec 24 := w.extractLsb' 8 24

/-- The decoder of a command word (R92, R93); it reads the word alone (R90). -/
def decodeCommand (w : Word) : Except DecodeError Command :=
  if rsvd w ≠ 0 then .error .reservedBits
  else
    match (opc w).toNat with
    | 0x00 => .ok .nop
    | 0x01 => .ok .tagFromBytes
    | 0x02 => .ok .tagFromText
    | 0x03 => .ok .chunkNew
    | 0x04 => .ok .decode
    | 0x05 => .ok .serialize
    | 0x06 => .ok .utf8Check
    | 0x07 => .ok .crcInit
    | 0x08 => .ok .crcFeed
    | _ => .error .unassignedOpcode

/-! ### The HOSTBUS format -/

/-- The decoder of a record (R98): all 8 kinds are defined, so it is total. A read drops `wdata` (R97). -/
def decodeRecord (t : HostBus) : Instr :=
  match t.kind with
  | 0b000#3 => .regRd t.addr
  | 0b001#3 => .regWr t.addr t.wdata
  | 0b010#3 => .inRd t.addr
  | 0b011#3 => .inWr t.addr t.wdata
  | 0b100#3 => .cpayRd t.addr
  | 0b101#3 => .cpayWr t.addr t.wdata
  | 0b110#3 => .outRd t.addr
  | 0b111#3 => .outWr t.addr t.wdata

/-- A record read from one number: `kind` in bits 2:0 as spec/opcode_table.json numbers it; `addr` in bits 34:3 and
`wdata` in bits 66:35 are the model's own places (DESIGN CHOICE, log entry 7). -/
def HostBus.ofBits (w : BitVec 67) : HostBus :=
  { kind := w.extractLsb' 0 3, addr := w.extractLsb' 3 32, wdata := w.extractLsb' 35 32 }

/-- The inverse of `HostBus.ofBits`. -/
def HostBus.toBits (t : HostBus) : BitVec 67 := t.wdata ++ t.addr ++ t.kind

/-! ### Both formats -/

/-- The decoder: total on every encoded form, rejecting by name. -/
def decodeEncoded : Encoded → Except DecodeError Instr
  | .cmd w =>
    match decodeCommand w with
    | .ok c => .ok c.toInstr
    | .error e => .error e
  | .hostBus t => .ok (decodeRecord t)

/-- The encoded form that a number stands for: a row of 32 bits is a CMD word, every other width is a HOSTBUS record
whose bits above `nbits` are 0 (log entry 8). -/
def encodedOfNat (nbits w : Nat) : Encoded :=
  if nbits = 32 then .cmd (BitVec.ofNat 32 w) else .hostBus (HostBus.ofBits (BitVec.ofNat 67 w))

/-- The host transaction that hands the block an encoded instruction: a command word is the datum of a REG_WR to CMD, offset
0x00 (R90, R98). -/
def Encoded.transaction : Encoded → HostBus
  | .cmd w => { kind := 0b001#3, addr := 0, wdata := w }
  | .hostBus t => t

/-- The instruction the decoder reads from the bits `w`, numbered as spec/opcode_table.json numbers them. -/
def decodeTableWord (nbits w : Nat) : Option Instr :=
  match decodeEncoded (encodedOfNat nbits w) with
  | .ok i => some i
  | .error _ => none

/-! ### The encoder -/

/-- The exact word w of each command (R92). -/
def encodeCommand : Command → Word
  | .nop          => 0x00000000#32
  | .tagFromBytes => 0x00000001#32
  | .tagFromText  => 0x00000002#32
  | .chunkNew     => 0x00000003#32
  | .decode       => 0x00000004#32
  | .serialize    => 0x00000005#32
  | .utf8Check    => 0x00000006#32
  | .crcInit      => 0x00000007#32
  | .crcFeed      => 0x00000008#32

/-- The encoder, from the tables of R92 and R98. A read is encoded with `wdata` = 0. -/
def encode : Instr → Encoded
  | .nop => .cmd (encodeCommand .nop)
  | .tagFromBytes => .cmd (encodeCommand .tagFromBytes)
  | .tagFromText => .cmd (encodeCommand .tagFromText)
  | .chunkNew => .cmd (encodeCommand .chunkNew)
  | .decode => .cmd (encodeCommand .decode)
  | .serialize => .cmd (encodeCommand .serialize)
  | .utf8Check => .cmd (encodeCommand .utf8Check)
  | .crcInit => .cmd (encodeCommand .crcInit)
  | .crcFeed => .cmd (encodeCommand .crcFeed)
  | .regRd a => .hostBus { kind := 0b000#3, addr := a, wdata := 0 }
  | .regWr a v => .hostBus { kind := 0b001#3, addr := a, wdata := v }
  | .inRd a => .hostBus { kind := 0b010#3, addr := a, wdata := 0 }
  | .inWr a v => .hostBus { kind := 0b011#3, addr := a, wdata := v }
  | .cpayRd a => .hostBus { kind := 0b100#3, addr := a, wdata := 0 }
  | .cpayWr a v => .hostBus { kind := 0b101#3, addr := a, wdata := v }
  | .outRd a => .hostBus { kind := 0b110#3, addr := a, wdata := 0 }
  | .outWr a v => .hostBus { kind := 0b111#3, addr := a, wdata := v }

/-- How many bits the encoded form has: a CMD word 32 (R91), a HOSTBUS record 3 + 32 + 32 (R97). -/
def Encoded.width : Encoded → Nat
  | .cmd _ => 32
  | .hostBus _ => 67

/-- The encoded form as one number, bit 0 its least significant bit. -/
def Encoded.toNat : Encoded → Nat
  | .cmd w => w.toNat
  | .hostBus t => t.toBits.toNat

end Sys2Proof
end

