-- ==== Sys2Proof/Machine/Memory.lean ====
section
/-!
DEFINITION. One byte buffer as a list of (address, byte) cells in one canonical form, and the memory primitives of R14.
-/

namespace Sys2Proof.Machine

/-- The contents of one buffer: only the bytes that differ from `Memory.unlisted` are listed. -/
abbrev Memory := List Host.Cell

namespace Memory

/-- What an address that is not listed reads as. R281 leaves every buffer byte after reset an arbitrary value: the draw of
a reset is an input of the model (`ResetDraw`), any draw is some list of cells, and this byte is only the one that the list
form leaves out (DESIGN CHOICE, log entry 4). -/
def unlisted : Byte := 0

/-- The canonical form: addresses strictly rising, no cell equal to what an unlisted address reads as. -/
abbrev wf (m : Memory) : Prop := m.Pairwise (fun p q => p.1 < q.1) ∧ ∀ p ∈ m, p.2 ≠ unlisted

/-- Every listed address lies in a buffer of `cap` bytes. -/
abbrev within (cap : Nat) (m : Memory) : Prop := ∀ p ∈ m, p.1 < cap

/-- The byte S[a]. -/
def read : Memory → Nat → Byte
  | [], _ => unlisted
  | (k, v) :: rest, a => if k = a then v else read rest a

/-- S[a] <- b, keeping the canonical form. -/
def write : Memory → Nat → Byte → Memory
  | [], a, b => if b = unlisted then [] else [(a, b)]
  | (k, v) :: rest, a, b =>
    if a < k then (if b = unlisted then (k, v) :: rest else (a, b) :: (k, v) :: rest)
    else if a = k then (if b = unlisted then rest else (a, b) :: rest)
    else (k, v) :: write rest a b

/-- MemRead(S, a, n) = [S[a], ..., S[a+n-1]] (R14). -/
def readBytes (m : Memory) (a : Nat) : Nat → List Byte
  | 0 => []
  | n + 1 => m.read a :: readBytes m (a + 1) n

/-- MemWrite(S, a, s): S[a+i] <- s[i] for every i < len(s), every other byte unchanged (R14). -/
def writeBytes (m : Memory) (a : Nat) : List Byte → Memory
  | [] => m
  | b :: bs => writeBytes (m.write a b) (a + 1) bs

/-- A buffer of `cap` bytes holding the bytes of a draw from address 0 upward. A draw longer than the buffer is cut, a
shorter one goes on with `unlisted` bytes (log entry 6). -/
def ofDraw (cap : Nat) (draw : List Byte) : Memory := writeBytes [] 0 (draw.take cap)

end Memory

end Sys2Proof.Machine
end

