-- ==== Sys2Proof/Machine/State.lean ====
section
/-!
DEFINITION. The state of PNGME-CRC32: all that R20 gives the machine, and the model's own fields (the instance's
configuration, the host's pending events, the values its reads returned); why a step can stop; the state after reset.
-/

namespace Sys2Proof.Machine

/-- Why the machine stops. -/
inductive Fault
  /-- Raised by `memRead` and `memWrite` alone, when a command would touch a byte at or above the capacity of the buffer.
  R14 and R66 say that no command ever does; it can happen only in a state that no run reaches (IN_LEN > IN_CAP, or a live
  CLEN > CPAY_CAP). Safe: the model stops where the spec gives nothing. -/
  | bufferRange (b : Buf)
  deriving DecidableEq, Repr

/-- Why the model has no meaning for an instruction. -/
inductive Refusal
  /-- Raised by an arm of `exec` whose instruction has no meaning yet: none is left. Safe. -/
  | notModelled (mnemonic : String)
  deriving DecidableEq, Repr

/-- The outcome of one step of this machine. -/
abbrev StepResult (σ : Type) := Host.Outcome σ Fault Refusal

/-- The errors a command can report (R250). Success is no error: it is ERR = 0. -/
inductive ErrorKind
  | invalidTagByte
  | wrongTagLength
  | truncatedBuffer
  | checksumMismatch
  | invalidUtf8
  | noTag
  | noChunk
  | illegalCommand
  deriving DecidableEq, Repr

/-- The twelve registers of the register map (R21). -/
inductive Reg
  | cmd
  | status
  | arg
  | inLen
  | tag
  | props
  | clen
  | ccrc
  | outLen
  | crcAcc
  | crcOut
  | id
  deriving DecidableEq, Repr

/-- The bytes that IN, CPAY and OUT happen to hold after one reset, from address 0 upward: a draw under no law (R281). -/
structure ResetDraw where
  inBuf : List Byte
  cpay  : List Byte
  out   : List Byte
  deriving DecidableEq, Repr

/-- What comes to the block from outside: one host transaction (R97), or a reset, which is taken only between host
transactions (R282). -/
inductive HostEvent
  | bus (t : HostBus)
  | reset (draw : ResetDraw)
  deriving DecidableEq, Repr

/-- The state. PROPS and CRC_OUT are derived, ID is a constant and CMD stores nothing (R20): they have no field. -/
structure State where
  /-- The parameter IN_CAP of this instance (R5); no step writes it. The model's own field (log entry 3). -/
  cfg        : Config
  /-- STATUS.ERR, bits 3:0 (R26, R27). -/
  err        : BitVec 4
  /-- STATUS.TAG_VALID, bit 8 (R26, R28). -/
  tagValid   : Bool
  /-- STATUS.CHUNK_VALID, bit 9 (R26, R29). -/
  chunkValid : Bool
  /-- STATUS.BUSERR, bit 16 (R26, R30). -/
  busErr     : Bool
  /-- ARG, offset 0x08 (R32). -/
  arg        : Word
  /-- IN_LEN, offset 0x0C (R33). -/
  inLen      : Word
  /-- TAG, offset 0x10 (R34). -/
  tag        : Word
  /-- CLEN, offset 0x18 (R36). -/
  clen       : Word
  /-- CCRC, offset 0x1C (R37). -/
  ccrc       : Word
  /-- OUT_LEN, offset 0x20 (R38). -/
  outLen     : Word
  /-- CRC_ACC, offset 0x24 (R39). -/
  crcAcc     : Word
  /-- The input buffer IN (R61). -/
  inBuf      : Memory
  /-- The payload store CPAY (R62). -/
  cpay       : Memory
  /-- The output buffer OUT (R63). -/
  out        : Memory
  /-- What the host still has to send, next event first (R102). The model's own field (log entry 1). -/
  host       : List HostEvent
  /-- The values the host's reads returned so far, oldest first (R293). The model's own field (log entry 2). -/
  reads      : List Word
  deriving DecidableEq, Repr

namespace State

/-- The state after a reset of an instance `c` whose buffers come up holding the draw `d`: every register at its value of
R21 and R26 (R280), no host transaction issued yet (R283). -/
def powerOn (c : Config) (d : ResetDraw) : State where
  cfg := c
  err := 0
  tagValid := false
  chunkValid := false
  busErr := false
  arg := 0x00000000#32
  inLen := 0x00000000#32
  tag := 0x00000000#32
  clen := 0x00000000#32
  ccrc := 0x00000000#32
  outLen := 0x00000000#32
  crcAcc := 0xFFFFFFFF#32
  inBuf := Memory.ofDraw (c.cap .inBuf) d.inBuf
  cpay := Memory.ofDraw (c.cap .cpay) d.cpay
  out := Memory.ofDraw (c.cap .out) d.out
  host := []
  reads := []

/-- The machine right after reset in the reference configuration (R9), with the draw in which no buffer byte is listed
(DESIGN CHOICE, log entry 4). -/
def reset : State := powerOn Config.reference { inBuf := [], cpay := [], out := [] }

/-- The contents of a buffer. -/
def buf (s : State) : Buf → Memory
  | .inBuf => s.inBuf
  | .cpay  => s.cpay
  | .out   => s.out

/-- The state with the contents of one buffer replaced. -/
def setBuf (s : State) : Buf → Memory → State
  | .inBuf, m => { s with inBuf := m }
  | .cpay, m  => { s with cpay := m }
  | .out, m   => { s with out := m }

/-- The capacity of a buffer of this instance. -/
def cap (s : State) (b : Buf) : Nat := s.cfg.cap b

end State

end Sys2Proof.Machine
end

