-- ==== Sys2Proof/Machine/Operands.lean ====
section
/-!
DEFINITION. How operands are assembled and read: big-endian conversion (R12, R96), tag bytes (R34), the letter test
(R110, R111), and the offsets of the register map (R21, R220).
-/

namespace Sys2Proof.Machine

/-- BE32([b0,b1,b2,b3]) = the concatenation of the four bytes, b0 most significant (R12). It is only ever applied to 4 bytes; on any
other list the value is not used (log entry 11). -/
def be32 : List Byte → Word
  | [b0, b1, b2, b3] => b0 ++ b1 ++ b2 ++ b3
  | _ => 0

/-- be_bytes(v) = [v[31:24], v[23:16], v[15:8], v[7:0]] (R12). -/
def beBytes (v : Word) : List Byte :=
  [v.extractLsb' 24 8, v.extractLsb' 16 8, v.extractLsb' 8 8, v.extractLsb' 0 8]

/-- tagbytes(TAG): the 4 tag bytes in wire order (R34). -/
def tagBytes (tag : Word) : List Byte := beBytes tag

/-- The ASCII letter test (R110). -/
def isLetter (b : Byte) : Bool :=
  (0x41 ≤ b.toNat && b.toNat ≤ 0x5A) || (0x61 ≤ b.toNat && b.toNat ≤ 0x7A)

/-- The tag check: every byte is a letter (R111). -/
def tagOk (t : List Byte) : Bool := t.all isLetter

/-- The canonical chunk layout: be_bytes(N) ++ t ++ p ++ be_bytes(c) with N = len(p) (R140). -/
def layout (t p : List Byte) (c : Word) : List Byte :=
  beBytes (BitVec.ofNat 32 p.length) ++ t ++ p ++ beBytes c

/-- The offset of each register (R21). -/
def Reg.offset : Reg → Word
  | .cmd    => 0x00#32
  | .status => 0x04#32
  | .arg    => 0x08#32
  | .inLen  => 0x0C#32
  | .tag    => 0x10#32
  | .props  => 0x14#32
  | .clen   => 0x18#32
  | .ccrc   => 0x1C#32
  | .outLen => 0x20#32
  | .crcAcc => 0x24#32
  | .crcOut => 0x28#32
  | .id     => 0x2C#32

/-- The register an offset names, if it names one: not when the offset is >= 0x100, has bits [1:0] other than 00, or is
reserved (R220, R221, R41). -/
def regAt (a : Word) : Option Reg :=
  if 0x100 ≤ a.toNat ∨ a.extractLsb' 0 2 ≠ 0 ∨ 0x30 ≤ a.toNat then none
  else
    match a.toNat with
    | 0x00 => some .cmd
    | 0x04 => some .status
    | 0x08 => some .arg
    | 0x0C => some .inLen
    | 0x10 => some .tag
    | 0x14 => some .props
    | 0x18 => some .clen
    | 0x1C => some .ccrc
    | 0x20 => some .outLen
    | 0x24 => some .crcAcc
    | 0x28 => some .crcOut
    | 0x2C => some .id
    | _ => none

end Sys2Proof.Machine
end

