-- ==== Sys2Proof/Machine/Flags.lean ====
section
/-!
DEFINITION. The result codes (R250), the STATUS word (R26) and the derived registers PROPS (R35, R114 to R118) and CRC_OUT
(R40).
-/

namespace Sys2Proof.Machine

/-- The result code of each error (R250); 0 is success, 9 to 15 are never produced. -/
def ErrorKind.code : ErrorKind → BitVec 4
  | .invalidTagByte   => 1
  | .wrongTagLength   => 2
  | .truncatedBuffer  => 3
  | .checksumMismatch => 4
  | .invalidUtf8      => 5
  | .noTag            => 6
  | .noChunk          => 7
  | .illegalCommand   => 8

namespace State

/-- The STATUS word: ERR in bits 3:0, TAG_VALID in bit 8, CHUNK_VALID in bit 9, BUSERR in bit 16; the reserved bits 7:4,
15:10 and 31:17 read 0 (R26). -/
def status (s : State) : Word :=
  0#15 ++ BitVec.ofBool s.busErr ++ 0#6 ++ BitVec.ofBool s.chunkValid ++ BitVec.ofBool s.tagValid ++ 0#4 ++ s.err

end State

/-- PROPS.CRITICAL of a valid tag: byte 0 is upper case, TAG bit 29 is 0 (R114). -/
def isCritical (tag : Word) : Bool := tag.getLsbD 29 == false

/-- PROPS.PUBLIC of a valid tag: byte 1 is upper case, TAG bit 21 is 0 (R115). -/
def isPublic (tag : Word) : Bool := tag.getLsbD 21 == false

/-- PROPS.RESERVED_VALID of a valid tag: byte 2 is upper case, TAG bit 13 is 0 (R116). -/
def isReservedValid (tag : Word) : Bool := tag.getLsbD 13 == false

/-- PROPS.SAFE_TO_COPY of a valid tag: byte 3 is lower case, TAG bit 5 is 1 (R117). -/
def isSafeToCopy (tag : Word) : Bool := tag.getLsbD 5 == true

/-- PROPS.VALID: the alias of RESERVED_VALID (R118). -/
def isValid (tag : Word) : Bool := isReservedValid tag

namespace State

/-- The derived register PROPS: 0 while no tag is valid, else its five fields with bits 31:5 zero (R35). -/
def props (s : State) : Word :=
  if s.tagValid = false then 0
  else
    0#27 ++ BitVec.ofBool (isValid s.tag) ++ BitVec.ofBool (isSafeToCopy s.tag) ++
      BitVec.ofBool (isReservedValid s.tag) ++ BitVec.ofBool (isPublic s.tag) ++ BitVec.ofBool (isCritical s.tag)

/-- The derived register CRC_OUT (R40). -/
def crcOut (s : State) : Word := s.crcAcc ^^^ 0xFFFFFFFF#32

end State

/-- The constant of register ID (R31). -/
def idWord : Word := 0x504E4701#32

end Sys2Proof.Machine
end

