-- ==== Sys2Proof/Machine/Ops.lean ====
section
/-!
DEFINITION. The shared operations: the two ways something is refused (`fail`, R16, and `raiseBusError`, R17; this block takes
no trap, R257, so they stand where another machine takes an exception), success, the answer of a read, the range-checked
memory primitives of a command (R14), the one operation that reads a register, and the reset transition (R282).
-/

namespace Sys2Proof.Machine

namespace State

/-- `fail(E)`: STATUS.ERR <- code(E), every other piece of state as it was before the command (R16, R257). -/
def fail (s : State) (e : ErrorKind) : State := { s with err := e.code }

/-- The successful end of a command: STATUS.ERR <- 0 (R27). -/
def succeed (s : State) : State := { s with err := 0 }

/-- `raise BusError`: STATUS.BUSERR <- 1 and no other effect (R17). -/
def raiseBusError (s : State) : State := { s with busErr := true }

/-- A read transaction returns the 32-bit value `v` to the host (R97, R220). -/
def answer (s : State) (v : Word) : State := { s with reads := s.reads ++ [v] }

/-- A refused read: a bus error, and the read returns 0 (R17). -/
def refuseRead (s : State) : State := s.raiseBusError.answer 0

/-- A refused write: a bus error and nothing else (R17). -/
def refuseWrite (s : State) : State := s.raiseBusError

/-- The value a register holds, at the block's own access (R15) and at an accepted host read (R221): CMD reads 0 (R25),
PROPS and CRC_OUT are derived, ID is constant. -/
def readReg (s : State) : Reg → Word
  | .cmd    => 0
  | .status => s.status
  | .arg    => s.arg
  | .inLen  => s.inLen
  | .tag    => s.tag
  | .props  => s.props
  | .clen   => s.clen
  | .ccrc   => s.ccrc
  | .outLen => s.outLen
  | .crcAcc => s.crcAcc
  | .crcOut => s.crcOut
  | .id     => idWord

/-- MemRead(S, a, n) inside a command (R14), whose bytes go to the rest `k` of the command. -/
def memRead (s : State) (b : Buf) (a n : Nat) (k : List Byte → StepResult State) : StepResult State :=
  if a + n ≤ s.cap b then k ((s.buf b).readBytes a n) else .fault (.bufferRange b)

/-- MemWrite(S, a, bs) at the end of a command (R14, R18); `k` makes the command's other writes. -/
def memWrite (s : State) (b : Buf) (a : Nat) (bs : List Byte) (k : State → StepResult State) : StepResult State :=
  if a + bs.length ≤ s.cap b then k (s.setBuf b ((s.buf b).writeBytes a bs)) else .fault (.bufferRange b)

/-- A host read of one buffer byte: refused at or above the capacity, else the byte zero-extended to 32 bits (R97, R223,
R225, R227). -/
def hostReadByte (s : State) (b : Buf) (addr : Word) : State :=
  if s.cap b ≤ addr.toNat then s.refuseRead else s.answer (((s.buf b).read addr.toNat).setWidth 32)

/-- The reset transition: the whole block goes to its reset values and the buffers hold the draw (R280 to R282). The
instance, what the host still has to send and what it has read are not the block's and stay (log entry 6). -/
def takeReset (s : State) (d : ResetDraw) : State :=
  { powerOn s.cfg d with host := s.host, reads := s.reads }

end State

end Sys2Proof.Machine
end

