-- ==== Sys2Proof/Machine/Crc32.lean ====
section
/-!
DEFINITION. The CRC-32 generator family (43_crc32.md): the function crc32 and the commands CRC_INIT and CRC_FEED.
-/

namespace Sys2Proof.Machine

/-- The polynomial 0x04C11DB7 with its 32 bits in reverse order (R190, R193). -/
def polyReflected : Word := 0xEDB88320#32

/-- One conditional shift of the register (R190). -/
def crcBit (c : Word) : Word := if c.getLsbD 0 then (c >>> 1) ^^^ polyReflected else c >>> 1

/-- `n` conditional shifts. -/
def crcBits : Nat → Word → Word
  | 0, c => c
  | n + 1, c => crcBits n (crcBit c)

/-- crc_byte(c, b): xor the zero-extended byte in, then shift 8 times (R190). -/
def crcByte (c : Word) (b : Byte) : Word := crcBits 8 (c ^^^ b.setWidth 32)

/-- crc_update(c, s): the bytes in sequence order (R191). -/
def crcUpdate : Word → List Byte → Word
  | c, [] => c
  | c, b :: s => crcUpdate (crcByte c b) s

/-- crc32(s) = crc_update(0xFFFFFFFF, s) xor 0xFFFFFFFF (R192). -/
def crc32 (s : List Byte) : Word := crcUpdate 0xFFFFFFFF#32 s ^^^ 0xFFFFFFFF#32

/-- CRC_INIT (R196). -/
def execCrcInit (s : State) : StepResult State := .next { s with crcAcc := 0xFFFFFFFF#32 }.succeed

/-- CRC_FEED (R197). -/
def execCrcFeed (s : State) : StepResult State :=
  s.memRead .inBuf 0 s.inLen.toNat fun p => .next { s with crcAcc := crcUpdate s.crcAcc p }.succeed

end Sys2Proof.Machine
end

