-- ==== Sys2Proof/Machine/Utf8.lean ====
section
/-!
DEFINITION. UTF-8 well-formedness (R150): the table of byte groups, and the scan that decides it.
-/

namespace Sys2Proof.Machine

/-- A range lo..hi of byte values, both ends included. -/
structure ByteRange where
  lo : Nat
  hi : Nat
  deriving DecidableEq, Repr

/-- A byte lies in a range. -/
def ByteRange.has (r : ByteRange) (b : Byte) : Bool := r.lo ≤ b.toNat && b.toNat ≤ r.hi

/-- The nine rows of R150: one byte range per byte of the group. -/
def utf8Rows : List (List ByteRange) :=
  [ [⟨0x00, 0x7F⟩],
    [⟨0xC2, 0xDF⟩, ⟨0x80, 0xBF⟩],
    [⟨0xE0, 0xE0⟩, ⟨0xA0, 0xBF⟩, ⟨0x80, 0xBF⟩],
    [⟨0xE1, 0xEC⟩, ⟨0x80, 0xBF⟩, ⟨0x80, 0xBF⟩],
    [⟨0xED, 0xED⟩, ⟨0x80, 0x9F⟩, ⟨0x80, 0xBF⟩],
    [⟨0xEE, 0xEF⟩, ⟨0x80, 0xBF⟩, ⟨0x80, 0xBF⟩],
    [⟨0xF0, 0xF0⟩, ⟨0x90, 0xBF⟩, ⟨0x80, 0xBF⟩, ⟨0x80, 0xBF⟩],
    [⟨0xF1, 0xF3⟩, ⟨0x80, 0xBF⟩, ⟨0x80, 0xBF⟩, ⟨0x80, 0xBF⟩],
    [⟨0xF4, 0xF4⟩, ⟨0x80, 0x8F⟩, ⟨0x80, 0xBF⟩, ⟨0x80, 0xBF⟩] ]

/-- A group matches a row: as many bytes as ranges, each byte in its range (R150). -/
def matchesRow : List ByteRange → List Byte → Bool
  | [], [] => true
  | r :: rs, b :: bs => r.has b && matchesRow rs bs
  | _, _ => false

/-- What a first byte asks of the bytes after it in its group; none if no group starts with it (R150: the first byte fixes
the group length). -/
def utf8Tail (b : Byte) : Option (List ByteRange) :=
  match utf8Rows.find? (fun row => (row.take 1).all (·.has b)) with
  | some row => some (row.drop 1)
  | none => none

/-- The scan: `pending` are the ranges the bytes still missing of the open group must lie in. -/
def utf8Scan : List ByteRange → List Byte → Bool
  | [], [] => true
  | _ :: _, [] => false
  | r :: rs, b :: bs => r.has b && utf8Scan rs bs
  | [], b :: bs =>
    match utf8Tail b with
    | some rs => utf8Scan rs bs
    | none => false

/-- utf8_wellformed(p) (R150). -/
def utf8WellFormed (p : List Byte) : Bool := utf8Scan [] p

end Sys2Proof.Machine
end

