-- ==== Sys2Proof/Machine/Chunk.lean ====
section
/-!
DEFINITION. The chunk family (42_chunk.md): NOP, CHUNK_NEW, DECODE, SERIALIZE and UTF8_CHECK.
-/

namespace Sys2Proof.Machine

/-- NOP (R151). -/
def execNop (s : State) : StepResult State := .next s.succeed

/-- CHUNK_NEW (R141). -/
def execChunkNew (s : State) : StepResult State :=
  if s.tagValid = false then .next (s.fail .noTag)
  else
    s.memRead .inBuf 0 s.inLen.toNat fun p =>
    s.memWrite .cpay 0 p fun s1 =>
      .next { s1 with clen := s.inLen, ccrc := crc32 (tagBytes s.tag ++ p), chunkValid := true }.succeed

/-- DECODE (R142), with the checks in the source's order (R254) and every length an exact natural number (R13). -/
def execDecode (s : State) : StepResult State :=
  let n := s.inLen.toNat
  if n < 12 then .next (s.fail .truncatedBuffer)
  else
    s.memRead .inBuf 0 4 fun lenBytes =>
    s.memRead .inBuf 4 4 fun t =>
    let len := be32 lenBytes
    let l := len.toNat
    if tagOk t = false then .next (s.fail .invalidTagByte)
    else if n < l + 8 then .next (s.fail .truncatedBuffer)
    else
      s.memRead .inBuf 8 l fun p =>
      if n < l + 8 + 4 then .next (s.fail .truncatedBuffer)
      else
        s.memRead .inBuf (8 + l) 4 fun sumBytes =>
        let stored := be32 sumBytes
        if crc32 (t ++ p) ≠ stored then .next (s.fail .checksumMismatch)
        else
          s.memWrite .cpay 0 p fun s1 =>
            .next { s1 with tag := be32 t, tagValid := true, clen := len, ccrc := stored, chunkValid := true }.succeed

/-- SERIALIZE (R145): its four MemWrites are at consecutive addresses, so they are one write of the concatenation (log
entry 12). The checksum written is the stored CCRC. -/
def execSerialize (s : State) : StepResult State :=
  if s.chunkValid = false then .next (s.fail .noChunk)
  else
    s.memRead .cpay 0 s.clen.toNat fun p =>
    s.memWrite .out 0 (beBytes s.clen ++ tagBytes s.tag ++ p ++ beBytes s.ccrc) fun s1 =>
      .next { s1 with outLen := BitVec.ofNat 32 (12 + s.clen.toNat) }.succeed

/-- UTF8_CHECK (R149). -/
def execUtf8Check (s : State) : StepResult State :=
  if s.chunkValid = false then .next (s.fail .noChunk)
  else
    s.memRead .cpay 0 s.clen.toNat fun p =>
    if utf8WellFormed p = false then .next (s.fail .invalidUtf8) else .next s.succeed

end Sys2Proof.Machine
end

