-- ==== Sys2Proof/Machine/TypeTag.lean ====
section
/-!
DEFINITION. The type-tag family (41_type_tag.md): TAG_FROM_BYTES and TAG_FROM_TEXT. (The property queries are the fields of
PROPS, Machine/Flags.lean.)
-/

namespace Sys2Proof.Machine

/-- The tag check and the writes that both tag commands share: the new tag is valid, the chunk built on the old one is no
longer live (R112, R113, R29). -/
def buildTag (s : State) (t : List Byte) : State :=
  if tagOk t then { s with tag := be32 t, tagValid := true, chunkValid := false }.succeed
  else s.fail .invalidTagByte

/-- TAG_FROM_BYTES: the 4 bytes of ARG, first byte in bits 31:24 (R112, R68). -/
def execTagFromBytes (s : State) : StepResult State := .next (buildTag s (beBytes s.arg))

/-- TAG_FROM_TEXT: the length is checked before the bytes (R113, R253). -/
def execTagFromText (s : State) : StepResult State :=
  if s.inLen.toNat ≠ 4 then .next (s.fail .wrongTagLength)
  else s.memRead .inBuf 0 4 fun t => .next (buildTag s t)

end Sys2Proof.Machine
end

