-- ==== Sys2Proof/Machine/HostPort.lean ====
section
/-!
DEFINITION. The host port family (44_host_port.md): the eight transaction kinds, and the execution of a command word written
to CMD.
-/

namespace Sys2Proof.Machine

/-- The effect of each command (R92). -/
def runCommand (c : Command) (s : State) : StepResult State :=
  match c with
  | .nop => execNop s
  | .tagFromBytes => execTagFromBytes s
  | .tagFromText => execTagFromText s
  | .chunkNew => execChunkNew s
  | .decode => execDecode s
  | .serialize => execSerialize s
  | .utf8Check => execUtf8Check s
  | .crcInit => execCrcInit s
  | .crcFeed => execCrcFeed s

/-- A word written to CMD (R90): a legal one runs its command, an illegal one is `fail(IllegalCommand)` (R93). -/
def execCommandWord (w : Word) (s : State) : StepResult State :=
  match decodeCommand w with
  | .ok c => runCommand c s
  | .error _ => .next (s.fail .illegalCommand)

/-- REG_RD (R221). -/
def execRegRd (addr : Word) (s : State) : StepResult State :=
  match regAt addr with
  | none => .next s.refuseRead
  | some r => .next (s.answer (s.readReg r))

/-- REG_WR (R222). -/
def execRegWr (addr wdata : Word) (s : State) : StepResult State :=
  match regAt addr with
  | none => .next s.refuseWrite
  | some .cmd => execCommandWord wdata s
  | some .status => .next (if wdata.getLsbD 16 then { s with busErr := false } else s)
  | some .arg => .next { s with arg := wdata }
  | some .inLen => .next (if s.cfg.inCap < wdata.toNat then s.refuseWrite else { s with inLen := wdata })
  | some .crcAcc => .next { s with crcAcc := wdata }
  | some .tag => .next s.refuseWrite
  | some .props => .next s.refuseWrite
  | some .clen => .next s.refuseWrite
  | some .ccrc => .next s.refuseWrite
  | some .outLen => .next s.refuseWrite
  | some .crcOut => .next s.refuseWrite
  | some .id => .next s.refuseWrite

/-- IN_RD (R223). -/
def execInRd (addr : Word) (s : State) : StepResult State := .next (s.hostReadByte .inBuf addr)

/-- IN_WR: wdata[31:8] is ignored (R224). -/
def execInWr (addr wdata : Word) (s : State) : StepResult State :=
  .next (if s.cfg.inCap ≤ addr.toNat then s.refuseWrite
    else { s with inBuf := s.inBuf.write addr.toNat (wdata.extractLsb' 0 8) })

/-- CPAY_RD (R225). -/
def execCpayRd (addr : Word) (s : State) : StepResult State := .next (s.hostReadByte .cpay addr)

/-- CPAY_WR is always refused (R226). -/
def execCpayWr (_addr _wdata : Word) (s : State) : StepResult State := .next s.refuseWrite

/-- OUT_RD (R227). -/
def execOutRd (addr : Word) (s : State) : StepResult State := .next (s.hostReadByte .out addr)

/-- OUT_WR is always refused (R228). -/
def execOutWr (_addr _wdata : Word) (s : State) : StepResult State := .next s.refuseWrite

end Sys2Proof.Machine
end

