-- ==== Sys2Proof/Machine/Dispatch.lean ====
section
/-! DEFINITION. One arm per constructor of Instr: the meaning it calls. -/

namespace Sys2Proof.Machine

def exec (i : Instr) (s : State) : Host.Outcome State Fault Refusal :=
  match i with
  | .nop => Sys2Proof.Machine.execNop s
  | .tagFromBytes => Sys2Proof.Machine.execTagFromBytes s
  | .tagFromText => Sys2Proof.Machine.execTagFromText s
  | .chunkNew => Sys2Proof.Machine.execChunkNew s
  | .decode => Sys2Proof.Machine.execDecode s
  | .serialize => Sys2Proof.Machine.execSerialize s
  | .utf8Check => Sys2Proof.Machine.execUtf8Check s
  | .crcInit => Sys2Proof.Machine.execCrcInit s
  | .crcFeed => Sys2Proof.Machine.execCrcFeed s
  | .regRd addr => Sys2Proof.Machine.execRegRd addr s
  | .regWr addr wdata => Sys2Proof.Machine.execRegWr addr wdata s
  | .inRd addr => Sys2Proof.Machine.execInRd addr s
  | .inWr addr wdata => Sys2Proof.Machine.execInWr addr wdata s
  | .cpayRd addr => Sys2Proof.Machine.execCpayRd addr s
  | .cpayWr addr wdata => Sys2Proof.Machine.execCpayWr addr wdata s
  | .outRd addr => Sys2Proof.Machine.execOutRd addr s
  | .outWr addr wdata => Sys2Proof.Machine.execOutWr addr wdata s

end Sys2Proof.Machine
end

