-- ==== Sys2Proof/Machine/Step.lean ====
section
/-!
DEFINITION. One step: the block takes the next event the host sends. The block fetches nothing from a memory (R81): a
transaction arrives, is decoded and runs to its end before the next one (R70).
-/

namespace Sys2Proof.Machine

/-- One step. With no event pending the block does nothing (R283; log entry 5). -/
def step (s : State) : Host.Outcome State Fault Refusal :=
  match s.host with
  | [] => .next s
  | .reset d :: rest => .next ({ s with host := rest }.takeReset d)
  | .bus t :: rest => exec (decodeRecord t) { s with host := rest }

/-- `s` with the instruction's transaction placed where step takes its next event. -/
def State.withFetchWord (s : State) (nbits w : Nat) : State :=
  { s with host := .bus (Encoded.transaction (encodedOfNat nbits w)) :: s.host }

end Sys2Proof.Machine
end

