-- ==== Sys2Proof/Machine/HostProgram.lean ====
section
/-!
DEFINITION. Host programs (R100 to R102): the four transaction lines, the pseudo-instructions with their exact expansions,
and the HOSTBUS records a program stands for. Comments and the `-> v` annotation of R100 have no effect and no form here.
-/

namespace Sys2Proof.Machine

/-- The `R` of `rd R` and `wr R, v`: a register name of R21, or an offset (R100). -/
inductive RegRef
  | name (r : Reg)
  | offset (n : Nat)
  deriving DecidableEq, Repr

/-- One line, one transaction (R100). -/
inductive Line
  | rd (r : RegRef)
  | wr (r : RegRef) (v : Nat)
  | rb (b : Buf) (a : Nat)
  | wb (b : Buf) (a v : Nat)
  deriving DecidableEq, Repr

/-- The pseudo-instructions of R101 beside the lines themselves; `loadText` is `load "text"`. -/
inductive Pseudo
  | line (l : Line)
  | cmd (c : Command)
  | load (bytes : List Nat)
  | loadText (text : String)
  | tag (text : String)
  | clrbus
  deriving DecidableEq, Repr

/-- A host program: a finite straight-line list, with no label, branch or loop (R102). -/
abbrev Program := List Pseudo

/-- The offset a reference stands for. -/
def RegRef.toNat : RegRef → Nat
  | .name r => r.offset.toNat
  | .offset n => n

/-- A line is legal when its numbers fit the record: offsets, addresses and register values 32 bits, a byte value 0 to 255
(R100, R97). An offset or address the port refuses is legal. -/
def Line.wellFormed : Line → Bool
  | .rd r => r.toNat < 2 ^ 32
  | .wr r v => r.toNat < 2 ^ 32 && v < 2 ^ 32
  | .rb _ a => a < 2 ^ 32
  | .wb _ a v => a < 2 ^ 32 && v < 256

/-- The ASCII code of a character (R101). -/
def asciiCode (c : Char) : Nat := c.toNat

/-- The ASCII codes of a text, without a terminator (R11, R101). -/
def asciiCodes (text : String) : List Nat := text.toList.map asciiCode

/-- A pseudo-instruction is legal when its bytes are bytes, its text is ASCII, and a tag text has 4 characters (R101). -/
def Pseudo.wellFormed : Pseudo → Bool
  | .line l => l.wellFormed
  | .cmd _ => true
  | .load bytes => bytes.all (· < 256)
  | .loadText text => (asciiCodes text).all (· < 128)
  | .tag text => (asciiCodes text).length == 4 && (asciiCodes text).all (· < 128)
  | .clrbus => true

/-- `wb IN, i, b0`, `wb IN, i+1, b1`, ... (R101). -/
def storeLines : Nat → List Nat → List Line
  | _, [] => []
  | i, b :: bs => .wb .inBuf i b :: storeLines (i + 1) bs

/-- The expansion of `load`: the bytes from address 0 upward, then IN_LEN (R101). -/
def loadLines (bytes : List Nat) : List Line := storeLines 0 bytes ++ [.wr (.name .inLen) bytes.length]

/-- The exact expansion of each pseudo-instruction (R101). -/
def Pseudo.expand : Pseudo → List Line
  | .line l => [l]
  | .cmd c => [.wr (.name .cmd) (encodeCommand c).toNat]
  | .load bytes => loadLines bytes
  | .loadText text => loadLines (asciiCodes text)
  | .tag text =>
    [.wr (.name .arg) (be32 ((asciiCodes text).map (BitVec.ofNat 8))).toNat,
     .wr (.name .cmd) (encodeCommand .tagFromBytes).toNat]
  | .clrbus => [.wr (.name .status) 0x00010000]

/-- The instruction of the HOSTBUS format a line is (R100). -/
def Line.toInstr : Line → Instr
  | .rd r => .regRd (BitVec.ofNat 32 r.toNat)
  | .wr r v => .regWr (BitVec.ofNat 32 r.toNat) (BitVec.ofNat 32 v)
  | .rb .inBuf a => .inRd (BitVec.ofNat 32 a)
  | .rb .cpay a => .cpayRd (BitVec.ofNat 32 a)
  | .rb .out a => .outRd (BitVec.ofNat 32 a)
  | .wb .inBuf a v => .inWr (BitVec.ofNat 32 a) (BitVec.ofNat 32 v)
  | .wb .cpay a v => .cpayWr (BitVec.ofNat 32 a) (BitVec.ofNat 32 v)
  | .wb .out a v => .outWr (BitVec.ofNat 32 a) (BitVec.ofNat 32 v)

/-- The HOSTBUS record of a line. -/
def Line.toBus (l : Line) : HostBus := (encode l.toInstr).transaction

/-- The transactions a program stands for, in order (R24, R102). -/
def Program.transactions (p : Program) : List HostBus := (p.flatMap Pseudo.expand).map Line.toBus

/-- The state in which the host has a program left to run. -/
def State.withProgram (s : State) (p : Program) : State :=
  { s with host := p.transactions.map HostEvent.bus }

end Sys2Proof.Machine
end

