-- ==== Sys2Proof/Safety.lean ====
section
/-!
DEFINITION. What a good state is (the invariants R43 to R45 and the canonical form of the buffers), what a host program's run
is and when it went wrong (R293).
-/

namespace Sys2Proof

open Machine

/-- The transactions that execute a command: a REG_WR to CMD (R27, R222). -/
def Instr.isCmdWrite : Instr → Bool
  | .regWr addr _ => addr == Reg.offset .cmd
  | _ => false

/-- The command an instruction runs, if it runs one: the nine instructions of the CMD format, and a REG_WR of a legal word
to CMD (R90, R92). -/
def Instr.command : Instr → Option Command
  | .nop => some .nop
  | .tagFromBytes => some .tagFromBytes
  | .tagFromText => some .tagFromText
  | .chunkNew => some .chunkNew
  | .decode => some .decode
  | .serialize => some .serialize
  | .utf8Check => some .utf8Check
  | .crcInit => some .crcInit
  | .crcFeed => some .crcFeed
  | .regWr addr wdata =>
    if addr = Reg.offset .cmd then
      match decodeCommand wdata with
      | .ok c => some c
      | .error _ => none
    else none
  | .regRd _ | .inRd _ | .inWr _ _ | .cpayRd _ | .cpayWr _ _ | .outRd _ | .outWr _ _ => none

/-- The instructions that execute a command word, legal or not. -/
def Instr.runsCommandWord (i : Instr) : Bool := i.isCmdWrite || i.command.isSome

/-- The read transactions (R97: WE = 0). -/
def Instr.isRead : Instr → Bool
  | .regRd _ | .inRd _ | .cpayRd _ | .outRd _ => true
  | .nop | .tagFromBytes | .tagFromText | .chunkNew | .decode | .serialize | .utf8Check | .crcInit | .crcFeed => false
  | .regWr _ _ | .inWr _ _ | .cpayWr _ _ | .outWr _ _ => false

end Sys2Proof

namespace Sys2Proof.Machine

/-- The payload of the live chunk, CPAY[0..CLEN) (R62). -/
def State.payload (s : State) : List Byte := s.cpay.readBytes 0 s.clen.toNat

/-- The command operand, the prefix IN[0..IN_LEN) (R61). -/
def State.operand (s : State) : List Byte := s.inBuf.readBytes 0 s.inLen.toNat

/-- A buffer is in the canonical form and lists only addresses that exist. -/
abbrev State.bufOk (s : State) (b : Buf) : Prop := (s.buf b).wf ∧ (s.buf b).within (s.cap b)

/-- The invariant of the machine. -/
structure State.Inv (s : State) : Prop where
  /-- 12 <= IN_CAP <= 2^32 - 13 (R5). -/
  cfg_ok : s.cfg.wellFormed
  /-- ERR never holds 9 to 15 (R27). -/
  err_le : s.err.toNat ≤ 8
  /-- IN_LEN <= IN_CAP (R45). -/
  inLen_le : s.inLen.toNat ≤ s.cfg.inCap
  /-- OUT_LEN is 0, or from 12 to OUT_CAP (R45). -/
  outLen_ok : s.outLen = 0 ∨ (12 ≤ s.outLen.toNat ∧ s.outLen.toNat ≤ s.cfg.outCap)
  /-- While TAG_VALID every tag byte is a letter (R43). -/
  tag_ok : s.tagValid = true → tagOk (tagBytes s.tag) = true
  /-- While CHUNK_VALID a tag is valid (R44 (a)). -/
  chunk_tag : s.chunkValid = true → s.tagValid = true
  /-- While CHUNK_VALID the payload fits CPAY (R44 (b)). -/
  chunk_len : s.chunkValid = true → s.clen.toNat ≤ s.cfg.cpayCap
  /-- While CHUNK_VALID the checksum is that of tag and payload (R44 (c)). -/
  chunk_crc : s.chunkValid = true → s.ccrc = crc32 (tagBytes s.tag ++ s.payload)
  /-- IN, CPAY and OUT are canonical and within their capacities. -/
  bufs_ok : ∀ b, s.bufOk b

/-- The instruction an event is, if it is a transaction. -/
def HostEvent.instr : HostEvent → Option Instr
  | .bus t => some (decodeRecord t)
  | .reset _ => none

/-- The host transaction is one the port refuses, in exactly the cases of R251. -/
def busRefused (c : Config) : Instr → Bool
  | .regRd a => (regAt a).isNone
  | .regWr a v =>
    match regAt a with
    | none => true
    | some .inLen => c.inCap < v.toNat
    | some .tag | some .props | some .clen | some .ccrc | some .outLen | some .crcOut | some .id => true
    | some .cmd | some .status | some .arg | some .crcAcc => false
  | .inRd a => c.inCap ≤ a.toNat
  | .inWr a _ => c.inCap ≤ a.toNat
  | .cpayRd a => c.cpayCap ≤ a.toNat
  | .cpayWr _ _ => true
  | .outRd a => c.outCap ≤ a.toNat
  | .outWr _ _ => true
  | .nop | .tagFromBytes | .tagFromText | .chunkNew | .decode | .serialize | .utf8Check | .crcInit | .crcFeed => false

/-! ### Runs of a host program (R293) -/

/-- What a run reported: the ERR left by each of its CMD writes in order, and the state at its end. -/
structure Report where
  errs  : List (BitVec 4)
  final : State
  deriving DecidableEq, Repr

/-- One event taken by a state: the step of the state in which it is the only one pending. -/
def State.take (s : State) (e : HostEvent) : StepResult State := step { s with host := [e] }

/-- The run of a list of events; none if the machine stops in it. -/
def runEvents : List HostEvent → State → Option Report
  | [], s => some { errs := [], final := s }
  | e :: rest, s =>
    match s.take e with
    | .next t =>
      match runEvents rest t with
      | some r =>
        if (e.instr.map Instr.isCmdWrite) = some true then some { r with errs := t.err :: r.errs } else some r
      | none => none
    | .fault _ => none
    | .refused _ => none

/-- A list of reported codes holds a nonzero one the program did not expect there. -/
def unexpectedErr : List (BitVec 4) → List (BitVec 4) → Bool
  | [], _ => false
  | e :: es, [] => e != 0 || unexpectedErr es []
  | e :: es, x :: xs => (e != 0 && e != x) || unexpectedErr es xs

/-- A run from `s` went wrong, given the codes its program expects: a command reported a nonzero ERR the program did not
expect, or BUSERR is 1 at the end having been 0 at the start (R293). -/
def wentWrong (s : State) (expected : List (BitVec 4)) (r : Report) : Bool :=
  unexpectedErr r.errs expected || (!s.busErr && r.final.busErr)

end Sys2Proof.Machine
end

