-- ==== Sys2Proof/Certificates/Slice0/Obligations.lean ====
section
/-!
DEFINITION. The statements for the provers. Each docstring says which sentence of the spec it formalises. A statement about
every state holds in states no run reaches too; where it needs a fact that only reached states have, that fact is a premise
here and part of `State.Inv`, which `StepKeepsInvariant` and `InvariantHoldsAfterReset` state of the machine.
-/

open Sys2Proof
open Sys2Proof.Machine

/-! ### Encoding and the step -/

/-- R92 and R98: the word of every row of the two tables decodes to that row, and two words of R93 to none. The eight kinds
are stated of whole records, with any address and datum, and again of the number a table row stands for: that a row of width 8
is read as a record whose bits above it are 0 is the model's choice (log entry 8), as are the places of addr and wdata (log
entry 7). -/
def Obligations.SpecWordsDecodeToTheirRows : Prop :=
  (decodeTableWord 32 0x00000000 = some .nop ∧
    decodeTableWord 32 0x00000001 = some .tagFromBytes ∧
    decodeTableWord 32 0x00000002 = some .tagFromText ∧
    decodeTableWord 32 0x00000003 = some .chunkNew ∧
    decodeTableWord 32 0x00000004 = some .decode ∧
    decodeTableWord 32 0x00000005 = some .serialize ∧
    decodeTableWord 32 0x00000006 = some .utf8Check ∧
    decodeTableWord 32 0x00000007 = some .crcInit ∧
    decodeTableWord 32 0x00000008 = some .crcFeed) ∧
  (decodeTableWord 32 0x00000009 = none ∧
    decodeTableWord 32 0x00000104 = none) ∧
  (∀ a v : Word,
    decodeRecord { kind := 0b000#3, addr := a, wdata := v } = .regRd a ∧
    decodeRecord { kind := 0b001#3, addr := a, wdata := v } = .regWr a v ∧
    decodeRecord { kind := 0b010#3, addr := a, wdata := v } = .inRd a ∧
    decodeRecord { kind := 0b011#3, addr := a, wdata := v } = .inWr a v ∧
    decodeRecord { kind := 0b100#3, addr := a, wdata := v } = .cpayRd a ∧
    decodeRecord { kind := 0b101#3, addr := a, wdata := v } = .cpayWr a v ∧
    decodeRecord { kind := 0b110#3, addr := a, wdata := v } = .outRd a ∧
    decodeRecord { kind := 0b111#3, addr := a, wdata := v } = .outWr a v) ∧
  (decodeTableWord 8 0b000 = some (.regRd 0) ∧
    decodeTableWord 8 0b001 = some (.regWr 0 0) ∧
    decodeTableWord 8 0b010 = some (.inRd 0) ∧
    decodeTableWord 8 0b011 = some (.inWr 0 0) ∧
    decodeTableWord 8 0b100 = some (.cpayRd 0) ∧
    decodeTableWord 8 0b101 = some (.cpayWr 0 0) ∧
    decodeTableWord 8 0b110 = some (.outRd 0) ∧
    decodeTableWord 8 0b111 = some (.outWr 0 0))

/-- R92, R97, R98: the decoder gives back every instruction from the bits of its encoding, whatever its operands. -/
def Obligations.EncodedInstructionDecodesBack : Prop :=
  ∀ i : Instr, i.wellFormed = true → decodeTableWord (encode i).width (encode i).toNat = some i

/-- R94: a command word is exactly one of the nine words of R92 or illegal, and illegal exactly when RSVD is not 0 or OPC is
0x09 to 0xFF. -/
def Obligations.CommandWordIsOneOfNineOrIllegal : Prop :=
  ∀ w : Word,
    (∀ c, decodeCommand w = .ok c ↔ w = encodeCommand c) ∧
    ((∃ e, decodeCommand w = .error e) ↔ w.extractLsb' 8 24 ≠ 0 ∨ 0x09 ≤ (w.extractLsb' 0 8).toNat)

/-- R97, R98: every record decodes to an instruction of its own kind, with its address and, if it writes, its datum. -/
def Obligations.HostBusRecordKeepsItsFields : Prop :=
  ∀ t : HostBus, ∃ u : HostBus,
    encode (decodeRecord t) = .hostBus u ∧ u.kind = t.kind ∧ u.addr = t.addr ∧
    (t.kind.getLsbD 0 = true → u.wdata = t.wdata) ∧
    (∀ v : Word, t.kind.getLsbD 0 = false → decodeRecord { t with wdata := v } = decodeRecord t)

/-- R70, R97: when the host's next event is a transaction, the step takes it off and is `exec` of the decoded record. -/
def Obligations.StepRunsTheDecodedTransaction : Prop :=
  ∀ (s : State) (t : HostBus) (rest : List HostEvent), s.host = .bus t :: rest →
    step s = exec (decodeRecord t) { s with host := rest }

/-- R90: the bits of an instruction of either format, placed where the step takes its next event, run exactly that
instruction; for the CMD format that goes through a REG_WR to CMD. (How a word is placed is the model's choice, log entry 8.) -/
def Obligations.PlacedWordRunsItsInstruction : Prop :=
  ∀ (s : State) (nbits w : Nat) (i : Instr), decodeTableWord nbits w = some i →
    step (s.withFetchWord nbits w) = exec i s

/-- R90, R92: a write of a command's word to CMD (offset 0x00) has exactly the effect of that command. -/
def Obligations.CommandWriteRunsItsCommand : Prop :=
  ∀ (c : Command) (s : State), exec (.regWr 0x00#32 (encodeCommand c)) s = exec c.toInstr s

/-- R93: an illegal word written to CMD sets ERR to 8 and changes nothing else; the reserved-bits check is made first. -/
def Obligations.IllegalCommandWordOnlySetsErr : Prop :=
  ∀ (w : Word) (s : State),
    (w.extractLsb' 8 24 ≠ 0 ∨ 0x09 ≤ (w.extractLsb' 0 8).toNat → exec (.regWr 0x00#32 w) s = .next { s with err := 8 }) ∧
    (w.extractLsb' 8 24 ≠ 0 → decodeCommand w = .error .reservedBits) ∧
    (w.extractLsb' 8 24 = 0 → 0x09 ≤ (w.extractLsb' 0 8).toNat → decodeCommand w = .error .unassignedOpcode)

/-! ### Reset -/

/-- R280: reset writes every stored register and every STATUS field, after which PROPS and CRC_OUT read 0 and ID its
constant. -/
def Obligations.ResetWritesEveryRegister : Prop :=
  ∀ (s : State) (d : ResetDraw) (rest : List HostEvent), s.host = .reset d :: rest →
    ∃ t, step s = .next t ∧
      t.err = 0 ∧ t.tagValid = false ∧ t.chunkValid = false ∧ t.busErr = false ∧
      t.arg = 0 ∧ t.inLen = 0 ∧ t.tag = 0 ∧ t.clen = 0 ∧ t.ccrc = 0 ∧ t.outLen = 0 ∧ t.crcAcc = 0xFFFFFFFF#32 ∧
      t.readReg .status = 0 ∧ t.readReg .props = 0 ∧ t.readReg .crcOut = 0 ∧ t.readReg .id = 0x504E4701#32

/-- R281, R282: after a reset each buffer holds the draw, byte for byte, whatever it held before; the instance, the host's
remaining events and the values it has read are as before (the model's choice, log entry 6). -/
def Obligations.ResetLeavesTheDrawInTheBuffers : Prop :=
  ∀ (s : State) (d : ResetDraw) (rest : List HostEvent), s.host = .reset d :: rest →
    d.inBuf.length = s.cfg.inCap → d.cpay.length = s.cfg.cpayCap → d.out.length = s.cfg.outCap →
    ∃ t, step s = .next t ∧
      t.inBuf.readBytes 0 s.cfg.inCap = d.inBuf ∧ t.cpay.readBytes 0 s.cfg.cpayCap = d.cpay ∧
      t.out.readBytes 0 s.cfg.outCap = d.out ∧
      t.cfg = s.cfg ∧ t.host = rest ∧ t.reads = s.reads

/-! ### Byte order, letters, STATUS and PROPS -/

/-- R12: the value of BE32, be_bytes byte by byte, and that the two are inverse. -/
def Obligations.BigEndianConversionsAreInverse : Prop :=
  (∀ b0 b1 b2 b3 : Byte,
    (be32 [b0, b1, b2, b3]).toNat = b0.toNat * 2 ^ 24 + b1.toNat * 2 ^ 16 + b2.toNat * 2 ^ 8 + b3.toNat) ∧
  (∀ v : Word, be32 (beBytes v) = v) ∧
  (∀ s : List Byte, s.length = 4 → beBytes (be32 s) = s)

/-- R110, R111: the letters are the two ranges; bit 5 of a letter tells lower case from upper case; and the check of four
bytes holds exactly when each of them is a letter. -/
def Obligations.TagCheckHoldsOfFourLetters : Prop :=
  (∀ b : Byte,
    (isLetter b = true ↔ (0x41 ≤ b.toNat ∧ b.toNat ≤ 0x5A) ∨ (0x61 ≤ b.toNat ∧ b.toNat ≤ 0x7A)) ∧
    (isLetter b = true → (b.getLsbD 5 = true ↔ 0x61 ≤ b.toNat))) ∧
  (∀ t0 t1 t2 t3 : Byte,
    tagOk [t0, t1, t2, t3] = true ↔
      isLetter t0 = true ∧ isLetter t1 = true ∧ isLetter t2 = true ∧ isLetter t3 = true)

/-- R26: every bit of the word STATUS reads as. -/
def Obligations.StatusWordHoldsItsFields : Prop :=
  ∀ s : State,
    s.readReg .status < 2 ^ 17 ∧
    (s.readReg .status).extractLsb' 0 4 = s.err ∧
    (s.readReg .status).extractLsb' 4 4 = 0 ∧
    (s.readReg .status).getLsbD 8 = s.tagValid ∧
    (s.readReg .status).getLsbD 9 = s.chunkValid ∧
    (s.readReg .status).extractLsb' 10 6 = 0 ∧
    (s.readReg .status).getLsbD 16 = s.busErr

/-- R114 to R118: a read of PROPS returns 0 with no valid tag; else each field is its bit of TAG, VALID is RESERVED_VALID and
bits 31:5 are 0 (R35); it changes nothing. -/
def Obligations.PropsHoldsTheFiveProperties : Prop :=
  ∀ s : State, ∃ v : Word,
    exec (.regRd 0x14#32) s = .next { s with reads := s.reads ++ [v] } ∧
    (s.tagValid = false → v = 0) ∧
    (s.tagValid = true →
      v.getLsbD 0 = !s.tag.getLsbD 29 ∧
      v.getLsbD 1 = !s.tag.getLsbD 21 ∧
      v.getLsbD 2 = !s.tag.getLsbD 13 ∧
      v.getLsbD 3 = s.tag.getLsbD 5 ∧
      v.getLsbD 4 = v.getLsbD 2 ∧
      v.extractLsb' 5 27 = 0)

/-- R119: each of PROPS bits 0 to 3 reads its own byte of TAG and no other, and the 16 case patterns of a valid tag give 16
values of PROPS[3:0]. -/
def Obligations.PropsBitsReadDistinctTagBytes : Prop :=
  (∀ (s t : State) (i : Nat), i < 4 → s.tagValid = true → t.tagValid = true →
    s.tag.extractLsb' (24 - 8 * i) 8 = t.tag.extractLsb' (24 - 8 * i) 8 →
    (s.readReg .props).getLsbD i = (t.readReg .props).getLsbD i) ∧
  (∀ (s : State) (p : BitVec 4), s.tagValid = true → tagOk (tagBytes s.tag) = true →
    ((s.readReg .props).extractLsb' 0 4 = p ↔
      p.getLsbD 0 = decide ((s.tag.extractLsb' 24 8).toNat ≤ 0x5A) ∧
      p.getLsbD 1 = decide ((s.tag.extractLsb' 16 8).toNat ≤ 0x5A) ∧
      p.getLsbD 2 = decide ((s.tag.extractLsb' 8 8).toNat ≤ 0x5A) ∧
      p.getLsbD 3 = decide (0x61 ≤ (s.tag.extractLsb' 0 8).toNat)))

/-! ### Type-tag commands -/

/-- R112: TAG_FROM_BYTES, both outcomes, and all that it leaves alone. -/
def Obligations.TagFromBytesChecksArg : Prop :=
  ∀ s : State,
    (tagOk (beBytes s.arg) = true →
      exec .tagFromBytes s = .next { s with tag := s.arg, tagValid := true, chunkValid := false, err := 0 }) ∧
    (tagOk (beBytes s.arg) = false → exec .tagFromBytes s = .next { s with err := 1 })

/-- R113, R253: TAG_FROM_TEXT checks the length, then the bytes; all its outcomes and all that it leaves alone. -/
def Obligations.TagFromTextChecksLengthThenBytes : Prop :=
  ∀ s : State, 4 ≤ s.cfg.inCap →
    (s.inLen ≠ 4 → exec .tagFromText s = .next { s with err := 2 }) ∧
    (s.inLen = 4 → tagOk (s.inBuf.readBytes 0 4) = false → exec .tagFromText s = .next { s with err := 1 }) ∧
    (s.inLen = 4 → tagOk (s.inBuf.readBytes 0 4) = true →
      exec .tagFromText s =
        .next { s with tag := be32 (s.inBuf.readBytes 0 4), tagValid := true, chunkValid := false, err := 0 })

/-- R120: after a successful TAG_FROM_BYTES a read of TAG returns ARG; after a successful TAG_FROM_TEXT its be_bytes are the
bytes of the text; and this holds until the next successful TAG_FROM_BYTES, TAG_FROM_TEXT or DECODE. -/
def Obligations.TagReadsBackExactly : Prop :=
  (∀ s t : State, exec .tagFromBytes s = .next t → t.err = 0 →
    exec (.regRd 0x10#32) t = .next { t with reads := t.reads ++ [s.arg] }) ∧
  (∀ s t : State, exec .tagFromText s = .next t → t.err = 0 →
    exec (.regRd 0x10#32) t = .next { t with reads := t.reads ++ [be32 (s.inBuf.readBytes 0 4)] } ∧
    beBytes t.tag = s.inBuf.readBytes 0 4) ∧
  (∀ (i : Instr) (s t : State), exec i s = .next t →
    ¬ (t.err = 0 ∧
      (i.command = some .tagFromBytes ∨ i.command = some .tagFromText ∨ i.command = some .decode)) →
    t.tag = s.tag)

/-! ### Chunk commands -/

/-- R151: NOP clears ERR and nothing else, BUSERR included. -/
def Obligations.NopOnlyClearsErr : Prop :=
  ∀ s : State, exec .nop s = .next { s with err := 0 }

/-- R141: CHUNK_NEW with no tag fails with NoTag; with one it copies the operand to CPAY, sets CLEN and CCRC and makes the
chunk live, and every other byte and register stays. -/
def Obligations.ChunkNewBuildsTheChunk : Prop :=
  ∀ s : State, s.inLen.toNat ≤ s.cfg.inCap → s.cpay.wf →
    (s.tagValid = false → exec .chunkNew s = .next { s with err := 6 }) ∧
    (s.tagValid = true → ∃ t, exec .chunkNew s = .next t ∧
      t.payload = s.operand ∧
      (∀ a, t.cpay.read a = if a < s.inLen.toNat then s.inBuf.read a else s.cpay.read a) ∧
      t = { s with
        cpay := t.cpay
        clen := s.inLen
        ccrc := crc32 (tagBytes s.tag ++ s.operand)
        chunkValid := true
        err := 0 })

/-- R142, R143, R254: which code DECODE reports, in the order of its checks; that a failed DECODE changes ERR alone; and the
chunk a successful one takes, with every other byte and register as before. -/
def Obligations.DecodeChecksInOrderThenTakesTheChunk : Prop :=
  ∀ s : State, s.inLen.toNat ≤ s.cfg.inCap → s.cpay.wf →
    let n := s.inLen.toNat
    let len := be32 (s.inBuf.readBytes 0 4)
    let t := s.inBuf.readBytes 4 4
    let p := s.inBuf.readBytes 8 len.toNat
    let stored := be32 (s.inBuf.readBytes (8 + len.toNat) 4)
    let code : BitVec 4 :=
      if n < 12 then 3
      else if tagOk t = false then 1
      else if n < 12 + len.toNat then 3
      else if crc32 (t ++ p) ≠ stored then 4
      else 0
    ∃ u, exec .decode s = .next u ∧ u.err = code ∧
      (code ≠ 0 → u = { s with err := code }) ∧
      (code = 0 →
        u.payload = p ∧
        (∀ a, u.cpay.read a = if a < len.toNat then s.inBuf.read (8 + a) else s.cpay.read a) ∧
        u = { s with
          tag := be32 t
          tagValid := true
          cpay := u.cpay
          clen := len
          ccrc := stored
          chunkValid := true
          err := 0 })

/-- R144: from a DECODE that succeeds with a chunk of length L, every IN_LEN from 12 + L to IN_CAP gives the same next state
but for IN_LEN itself, 12 + L alone included, and the bytes of IN from 12 + L on are not read. -/
def Obligations.DecodeIgnoresTrailingBytes : Prop :=
  ∀ s t : State, exec .decode s = .next t → t.err = 0 →
    (∀ n : Word, 12 + t.clen.toNat ≤ n.toNat → n.toNat ≤ s.cfg.inCap →
      exec .decode { s with inLen := n } = .next { t with inLen := n }) ∧
    (∀ m : Memory, (∀ a, a < 12 + t.clen.toNat → m.read a = s.inBuf.read a) →
      exec .decode { s with inBuf := m } = .next { t with inBuf := m })

/-- R145, R140: SERIALIZE with no live chunk fails with NoChunk; with one it writes the layout of tag, payload and stored
checksum to OUT from address 0 and sets OUT_LEN, and every other byte and register stays. -/
def Obligations.SerializeWritesTheLayout : Prop :=
  ∀ s : State, s.cfg.wellFormed → s.out.wf →
    (s.chunkValid = false → exec .serialize s = .next { s with err := 7 }) ∧
    (s.chunkValid = true → s.clen.toNat ≤ s.cfg.cpayCap → ∃ t, exec .serialize s = .next t ∧
      t.outLen.toNat = 12 + s.clen.toNat ∧
      t.out.readBytes 0 (12 + s.clen.toNat) = layout (tagBytes s.tag) s.payload s.ccrc ∧
      (∀ a, 12 + s.clen.toNat ≤ a → t.out.read a = s.out.read a) ∧
      t = { s with out := t.out, outLen := t.outLen, err := 0 })

/-- R149, R255: UTF8_CHECK reports NoChunk first, then InvalidUtf8, and writes ERR alone. -/
def Obligations.Utf8CheckReportsThePayload : Prop :=
  ∀ s : State,
    (s.chunkValid = false → exec .utf8Check s = .next { s with err := 7 }) ∧
    (s.chunkValid = true → s.clen.toNat ≤ s.cfg.cpayCap →
      exec .utf8Check s = .next { s with err := if utf8WellFormed s.payload then 0 else 5 })

/-- R150: the scan holds exactly of the sequences that split, from the start, into groups each matching a row of the table;
and the split is unique. The table itself is general knowledge that the spec adopts (log entry 14). -/
def Obligations.Utf8ScanHoldsOfSplitSequences : Prop :=
  (∀ p : List Byte,
    utf8WellFormed p = true ↔
      ∃ groups : List (List Byte), p = groups.flatten ∧
        ∀ g ∈ groups, ∃ row ∈ utf8Rows, matchesRow row g = true) ∧
  (∀ gs hs : List (List Byte),
    (∀ g ∈ gs, ∃ row ∈ utf8Rows, matchesRow row g = true) →
    (∀ h ∈ hs, ∃ row ∈ utf8Rows, matchesRow row h = true) →
    gs.flatten = hs.flatten → gs = hs)

/-- R150: what the table rejects at the start of a sequence: lone continuation bytes, C0, C1 and F5 to FF; overlong forms;
surrogates; values above U+10FFFF; a group of two, three or four bytes cut short after any of its bytes. And an ASCII byte is a
group of its own. The table is general knowledge that the spec adopts (log entry 14). -/
def Obligations.Utf8RejectsIllFormedStarts : Prop :=
  ∀ (b c d : Byte) (rest : List Byte),
    (0x80 ≤ b.toNat ∧ b.toNat ≤ 0xC1 → utf8WellFormed (b :: rest) = false) ∧
    (0xF5 ≤ b.toNat → utf8WellFormed (b :: rest) = false) ∧
    (b.toNat = 0xE0 → 0x80 ≤ c.toNat ∧ c.toNat ≤ 0x9F → utf8WellFormed (b :: c :: rest) = false) ∧
    (b.toNat = 0xED → 0xA0 ≤ c.toNat ∧ c.toNat ≤ 0xBF → utf8WellFormed (b :: c :: rest) = false) ∧
    (b.toNat = 0xF0 → 0x80 ≤ c.toNat ∧ c.toNat ≤ 0x8F → utf8WellFormed (b :: c :: rest) = false) ∧
    (b.toNat = 0xF4 → 0x90 ≤ c.toNat → utf8WellFormed (b :: c :: rest) = false) ∧
    (0x80 ≤ b.toNat → utf8WellFormed [b] = false) ∧
    (0xE0 ≤ b.toNat → utf8WellFormed [b, c] = false) ∧
    (0xF0 ≤ b.toNat → utf8WellFormed [b, c, d] = false) ∧
    (b.toNat ≤ 0x7F → utf8WellFormed (b :: rest) = utf8WellFormed rest)

/-! ### Round trips (R146) -/

/-- R146 (a): the serialized form of a live chunk, copied into IN, decodes to the same chunk. -/
def Obligations.DecodeOfSerializeGivesTheChunk : Prop :=
  ∀ s : State, s.Inv → s.chunkValid = true → 12 + s.clen.toNat ≤ s.cfg.inCap →
    ∃ t u, exec .serialize s = .next t ∧
      exec .decode { t with
        inBuf := t.inBuf.writeBytes 0 (t.out.readBytes 0 t.outLen.toNat), inLen := t.outLen } = .next u ∧
      u.err = 0 ∧ u.tagValid = true ∧ u.chunkValid = true ∧
      u.tag = s.tag ∧ u.clen = s.clen ∧ u.ccrc = s.ccrc ∧ u.payload = s.payload

/-- R146 (b): after a successful DECODE, SERIALIZE reproduces the consumed prefix of IN. -/
def Obligations.SerializeOfDecodeGivesTheConsumedPrefix : Prop :=
  ∀ s t : State, s.Inv → exec .decode s = .next t → t.err = 0 →
    ∃ u, exec .serialize t = .next u ∧ u.err = 0 ∧ u.outLen.toNat = 12 + t.clen.toNat ∧
      u.out.readBytes 0 (12 + t.clen.toNat) = s.inBuf.readBytes 0 (12 + t.clen.toNat)

/-- R146 (c): a chunk built from any valid tag and any payload of at most IN_CAP - 12 bytes serializes and decodes to the
same chunk. -/
def Obligations.BuiltChunkSurvivesTheRoundTrip : Prop :=
  ∀ s : State, s.Inv → s.tagValid = true → s.inLen.toNat ≤ s.cfg.inCap - 12 →
    ∃ t u v, exec .chunkNew s = .next t ∧ exec .serialize t = .next u ∧
      exec .decode { u with
        inBuf := u.inBuf.writeBytes 0 (u.out.readBytes 0 u.outLen.toNat), inLen := u.outLen } = .next v ∧
      v.err = 0 ∧ v.chunkValid = true ∧
      v.tag = s.tag ∧ v.clen = s.inLen ∧ v.payload = s.operand ∧ v.ccrc = t.ccrc

/-! ### The CRC-32 generator -/

/-- R190, R193: the reflected polynomial is 0x04C11DB7 bit-reversed, and the check value of CRC-32/ISO-HDLC. -/
def Obligations.CrcParametersAndCheckValue : Prop :=
  (∀ i : Fin 32, polyReflected.getLsbD i = (0x04C11DB7#32).getLsbD (31 - i)) ∧
  crc32 [0x31, 0x32, 0x33, 0x34, 0x35, 0x36, 0x37, 0x38, 0x39] = 0xCBF43926#32

/-- R194: the table form of the byte step, with T[i] = crc_byte(0, i), and the entries of T that the rule gives. -/
def Obligations.CrcByteHasItsTableForm : Prop :=
  (∀ (c : Word) (b : Byte),
    crcByte c b = (c >>> 8) ^^^ crcByte 0 (((c ^^^ b.setWidth 32) &&& 0xFF#32).setWidth 8)) ∧
  crcByte 0 0x00 = 0x00000000#32 ∧ crcByte 0 0x01 = 0x77073096#32 ∧ crcByte 0 0x02 = 0xEE0E612C#32 ∧
  crcByte 0 0x03 = 0x990951BA#32 ∧ crcByte 0 0x04 = 0x076DC419#32 ∧ crcByte 0 0x08 = 0x0EDB8832#32 ∧
  crcByte 0 0x10 = 0x1DB71064#32 ∧ crcByte 0 0x20 = 0x3B6E20C8#32 ∧ crcByte 0 0x40 = 0x76DC4190#32 ∧
  crcByte 0 0x80 = 0xEDB88320#32 ∧ crcByte 0 0xFE = 0x5A05DF1B#32 ∧ crcByte 0 0xFF = 0x2D02EF8D#32

/-- R195 (a) and (d): the register update composes, and crc32 of nothing is 0. -/
def Obligations.CrcUpdateComposes : Prop :=
  (∀ (c : Word) (s u : List Byte), crcUpdate c (s ++ u) = crcUpdate (crcUpdate c s) u) ∧
  crc32 [] = 0

/-- R195 (b): linearity over sequences of one length. -/
def Obligations.CrcIsLinear : Prop :=
  ∀ x y : List Byte, x.length = y.length →
    crc32 x ^^^ crc32 y = crcUpdate 0 (List.zipWith (· ^^^ ·) x y)

/-- R195 (c): two sequences of equal length that differ in exactly one byte have different checksums. -/
def Obligations.CrcDetectsEverySingleByteError : Prop :=
  ∀ (pre post : List Byte) (x y : Byte), x ≠ y → crc32 (pre ++ x :: post) ≠ crc32 (pre ++ y :: post)

/-- R195 (c), C2: change one byte of the tag or the payload of a buffer that decodes, and DECODE fails, with ChecksumMismatch
for a payload byte, with ChecksumMismatch or InvalidTagByte for a tag byte; nothing but ERR changes. -/
def Obligations.CorruptedChunkNeverDecodes : Prop :=
  ∀ (s t : State) (a : Nat) (b : Byte), s.inBuf.wf → exec .decode s = .next t → t.err = 0 →
    4 ≤ a → a < 8 + t.clen.toNat → b ≠ s.inBuf.read a →
    ∃ e : BitVec 4, exec .decode { s with inBuf := s.inBuf.write a b } =
        .next { s with inBuf := s.inBuf.write a b, err := e } ∧
      (8 ≤ a → e = 4) ∧ (a < 8 → (e = 4 ∧ isLetter b = true) ∨ (e = 1 ∧ isLetter b = false))

/-- R196: CRC_INIT. -/
def Obligations.CrcInitLoadsTheInitialValue : Prop :=
  ∀ s : State, exec .crcInit s = .next { s with crcAcc := 0xFFFFFFFF#32, err := 0 }

/-- R197: CRC_FEED advances the accumulator over the operand; an empty operand leaves it unchanged; feeding one operand and
then another leaves the accumulator as feeding their concatenation once. -/
def Obligations.CrcFeedAdvancesTheAccumulator : Prop :=
  (∀ s : State, s.inLen.toNat ≤ s.cfg.inCap →
    exec .crcFeed s = .next { s with crcAcc := crcUpdate s.crcAcc s.operand, err := 0 } ∧
    (s.inLen = 0 → exec .crcFeed s = .next { s with err := 0 })) ∧
  (∀ s t u v w : State, exec .crcFeed s = .next t → u.crcAcc = t.crcAcc → exec .crcFeed u = .next v →
    w.crcAcc = s.crcAcc → w.operand = s.operand ++ u.operand → w.inLen.toNat ≤ w.cfg.inCap →
    ∃ x, exec .crcFeed w = .next x ∧ x.crcAcc = v.crcAcc)

/-- R198: CRC_INIT then CRC_FEED over tag ++ payload leaves CRC_OUT equal to the CCRC that CHUNK_NEW computes and that
DECODE accepts for them. -/
def Obligations.StreamingCrcAgreesWithTheChunk : Prop :=
  ∀ (c : Command) (s t u : State), c = .chunkNew ∨ c = .decode → exec c.toInstr s = .next t → t.err = 0 → s.cpay.wf →
    u.operand = tagBytes t.tag ++ t.payload → u.inLen.toNat ≤ u.cfg.inCap →
    ∃ v w, exec .crcInit u = .next v ∧ v.readReg .crcOut = 0 ∧ exec .crcFeed v = .next w ∧
      w.readReg .crcOut = t.ccrc

/-! ### The host port -/

/-- R221, R21: REG_RD of an offset that names no register is refused; of each register it returns the register's value; it
changes nothing else. -/
def Obligations.RegisterReadAnswersTheRegister : Prop :=
  ∀ (s : State) (a : Word),
    (0x100 ≤ a.toNat ∨ a.extractLsb' 0 2 ≠ 0 ∨ 0x30 ≤ a.toNat →
      exec (.regRd a) s = .next { s with busErr := true, reads := s.reads ++ [0] }) ∧
    (a = 0x00 → exec (.regRd a) s = .next { s with reads := s.reads ++ [0] }) ∧
    (a = 0x04 → exec (.regRd a) s = .next { s with reads := s.reads ++ [s.status] }) ∧
    (a = 0x08 → exec (.regRd a) s = .next { s with reads := s.reads ++ [s.arg] }) ∧
    (a = 0x0C → exec (.regRd a) s = .next { s with reads := s.reads ++ [s.inLen] }) ∧
    (a = 0x10 → exec (.regRd a) s = .next { s with reads := s.reads ++ [s.tag] }) ∧
    (a = 0x14 → exec (.regRd a) s = .next { s with reads := s.reads ++ [s.props] }) ∧
    (a = 0x18 → exec (.regRd a) s = .next { s with reads := s.reads ++ [s.clen] }) ∧
    (a = 0x1C → exec (.regRd a) s = .next { s with reads := s.reads ++ [s.ccrc] }) ∧
    (a = 0x20 → exec (.regRd a) s = .next { s with reads := s.reads ++ [s.outLen] }) ∧
    (a = 0x24 → exec (.regRd a) s = .next { s with reads := s.reads ++ [s.crcAcc] }) ∧
    (a = 0x28 → exec (.regRd a) s = .next { s with reads := s.reads ++ [s.crcAcc ^^^ 0xFFFFFFFF#32] }) ∧
    (a = 0x2C → exec (.regRd a) s = .next { s with reads := s.reads ++ [0x504E4701#32] })

/-- R222: REG_WR, every offset. -/
def Obligations.RegisterWriteFollowsTheMap : Prop :=
  ∀ (s : State) (a v : Word),
    (0x100 ≤ a.toNat ∨ a.extractLsb' 0 2 ≠ 0 ∨ 0x30 ≤ a.toNat →
      exec (.regWr a v) s = .next { s with busErr := true }) ∧
    (a = 0x00 → ∀ c, decodeCommand v = .ok c → exec (.regWr a v) s = exec c.toInstr s) ∧
    (a = 0x00 → ∀ e, decodeCommand v = .error e → exec (.regWr a v) s = .next { s with err := 8 }) ∧
    (a = 0x04 → v.getLsbD 16 = true → exec (.regWr a v) s = .next { s with busErr := false }) ∧
    (a = 0x04 → v.getLsbD 16 = false → exec (.regWr a v) s = .next s) ∧
    (a = 0x08 → exec (.regWr a v) s = .next { s with arg := v }) ∧
    (a = 0x0C → s.cfg.inCap < v.toNat → exec (.regWr a v) s = .next { s with busErr := true }) ∧
    (a = 0x0C → v.toNat ≤ s.cfg.inCap → exec (.regWr a v) s = .next { s with inLen := v }) ∧
    (a = 0x24 → exec (.regWr a v) s = .next { s with crcAcc := v }) ∧
    (a = 0x10 ∨ a = 0x14 ∨ a = 0x18 ∨ a = 0x1C ∨ a = 0x20 ∨ a = 0x28 ∨ a = 0x2C →
      exec (.regWr a v) s = .next { s with busErr := true })

/-- R223, R225, R227: a read of a buffer byte below the capacity returns it zero-extended, one at or above it is refused; no
other effect. -/
def Obligations.BufferReadAnswersTheByte : Prop :=
  ∀ (s : State) (a : Word),
    (a.toNat < s.cfg.inCap → ∃ v : Word, exec (.inRd a) s = .next { s with reads := s.reads ++ [v] } ∧
      v.toNat = (s.inBuf.read a.toNat).toNat) ∧
    (s.cfg.inCap ≤ a.toNat → exec (.inRd a) s = .next { s with busErr := true, reads := s.reads ++ [0] }) ∧
    (a.toNat < s.cfg.cpayCap → ∃ v : Word, exec (.cpayRd a) s = .next { s with reads := s.reads ++ [v] } ∧
      v.toNat = (s.cpay.read a.toNat).toNat) ∧
    (s.cfg.cpayCap ≤ a.toNat → exec (.cpayRd a) s = .next { s with busErr := true, reads := s.reads ++ [0] }) ∧
    (a.toNat < s.cfg.outCap → ∃ v : Word, exec (.outRd a) s = .next { s with reads := s.reads ++ [v] } ∧
      v.toNat = (s.out.read a.toNat).toNat) ∧
    (s.cfg.outCap ≤ a.toNat → exec (.outRd a) s = .next { s with busErr := true, reads := s.reads ++ [0] })

/-- R224: IN_WR stores wdata[7:0] at an address below the capacity and changes nothing else, IN_LEN included; at or above the
capacity it is refused. -/
def Obligations.InputWriteStoresOneByte : Prop :=
  ∀ (s : State) (a v : Word), s.inBuf.wf →
    (a.toNat < s.cfg.inCap → ∃ t, exec (.inWr a v) s = .next t ∧
      (∀ k, t.inBuf.read k = if k = a.toNat then v.extractLsb' 0 8 else s.inBuf.read k) ∧
      t = { s with inBuf := t.inBuf }) ∧
    (s.cfg.inCap ≤ a.toNat → exec (.inWr a v) s = .next { s with busErr := true })

/-- R226, R228: CPAY_WR and OUT_WR set BUSERR and do nothing else, at every address. -/
def Obligations.PayloadAndOutputWritesAreRefused : Prop :=
  ∀ (s : State) (a v : Word),
    exec (.cpayWr a v) s = .next { s with busErr := true } ∧
    exec (.outWr a v) s = .next { s with busErr := true }

/-- R30, R251: BUSERR after a transaction is 1 exactly if it was refused, in the cases R251 lists, or was 1 before and was not
cleared by a write to STATUS with bit 16 = 1; commands do not touch it. -/
def Obligations.BuserrRisesExactlyOnRefusal : Prop :=
  ∀ (i : Instr) (s t : State), exec i s = .next t →
    (t.busErr = true ↔
      busRefused s.cfg i = true ∨
      (s.busErr = true ∧ ¬ ∃ v : Word, i = .regWr 0x04#32 v ∧ v.getLsbD 16 = true))

/-- R17, R220, R256: a refused transaction completes, sets BUSERR and has no other effect; a refused read returns 0; and a
refused transaction is no CMD write, so it executes no command. -/
def Obligations.RefusedTransactionHasNoOtherEffect : Prop :=
  ∀ (i : Instr) (s : State), busRefused s.cfg i = true →
    i.runsCommandWord = false ∧
    exec i s = .next { s with busErr := true, reads := if i.isRead then s.reads ++ [0] else s.reads }

/-- R74: an accepted read changes no state of the block and read again returns the same value; a write of ARG, IN_LEN,
CRC_ACC or an IN byte made twice leaves the state as made once; a CMD write does not in general, CRC_FEED is one that does
not. -/
def Obligations.ReadsAndPlainWritesAreIdempotent : Prop :=
  (∀ (i : Instr) (s t : State), i.isRead = true → busRefused s.cfg i = false → exec i s = .next t →
    ∃ v : Word, t = { s with reads := s.reads ++ [v] } ∧ exec i t = .next { t with reads := t.reads ++ [v] }) ∧
  (∀ (a v : Word) (s t : State), a = 0x08#32 ∨ a = 0x0C#32 ∨ a = 0x24#32 →
    exec (.regWr a v) s = .next t → exec (.regWr a v) t = .next t) ∧
  (∀ (a v : Word) (s t : State), s.inBuf.wf → exec (.inWr a v) s = .next t → exec (.inWr a v) t = .next t) ∧
  (∃ s t u : State, exec (.regWr 0x00#32 0x00000008#32) s = .next t ∧ exec (.regWr 0x00#32 0x00000008#32) t = .next u ∧
    u.crcAcc ≠ t.crcAcc ∧ t.crcAcc ≠ s.crcAcc)

/-! ### Rules about the whole machine -/

/-- R27: ERR is written by every command and only by commands, and its values are 0 to 8. -/
def Obligations.ErrIsWrittenByCommandsOnly : Prop :=
  ∀ (i : Instr) (s t : State), exec i s = .next t →
    (i.runsCommandWord = false → t.err = s.err) ∧
    (i.runsCommandWord = true → t.err.toNat ≤ 8 ∧ ∀ e : BitVec 4, exec i { s with err := e } = .next t)

/-- R28: TAG_VALID rises only by a successful TAG_FROM_BYTES, TAG_FROM_TEXT or DECODE, each of which leaves it 1, and no
instruction clears it. -/
def Obligations.TagValidRisesOnlyByTagCommands : Prop :=
  ∀ (i : Instr) (s t : State), exec i s = .next t →
    (s.tagValid = true → t.tagValid = true) ∧
    (t.tagValid ≠ s.tagValid → t.err = 0 ∧
      (i.command = some .tagFromBytes ∨ i.command = some .tagFromText ∨ i.command = some .decode)) ∧
    (t.err = 0 → i.command = some .tagFromBytes ∨ i.command = some .tagFromText ∨ i.command = some .decode →
      t.tagValid = true)

/-- R29: CHUNK_VALID is 1 after a successful CHUNK_NEW or DECODE, 0 after a successful TAG_FROM_BYTES or TAG_FROM_TEXT, and no
other instruction changes it. -/
def Obligations.ChunkValidFollowsItsWriters : Prop :=
  ∀ (i : Instr) (s t : State), exec i s = .next t →
    (t.err = 0 → i.command = some .chunkNew ∨ i.command = some .decode → t.chunkValid = true) ∧
    (t.err = 0 → i.command = some .tagFromBytes ∨ i.command = some .tagFromText → t.chunkValid = false) ∧
    (¬ (t.err = 0 ∧ (i.command = some .chunkNew ∨ i.command = some .decode ∨
        i.command = some .tagFromBytes ∨ i.command = some .tagFromText)) → t.chunkValid = s.chunkValid)

/-- R95, R65: each command writes only the state in its row, and of the buffers only the bytes its rule names. -/
def Obligations.CommandsWriteOnlyTheirRow : Prop :=
  ∀ (s t : State), s.cpay.wf → s.out.wf →
    (exec .nop s = .next t ∨ exec .utf8Check s = .next t → t = { s with err := t.err }) ∧
    (exec .tagFromBytes s = .next t ∨ exec .tagFromText s = .next t →
      t = { s with tag := t.tag, tagValid := t.tagValid, chunkValid := t.chunkValid, err := t.err }) ∧
    (exec .chunkNew s = .next t →
      t = { s with cpay := t.cpay, clen := t.clen, ccrc := t.ccrc, chunkValid := t.chunkValid, err := t.err } ∧
      ∀ a, s.inLen.toNat ≤ a → t.cpay.read a = s.cpay.read a) ∧
    (exec .decode s = .next t →
      t = { s with
        tag := t.tag, tagValid := t.tagValid, cpay := t.cpay, clen := t.clen, ccrc := t.ccrc,
        chunkValid := t.chunkValid, err := t.err } ∧
      ∀ a, (be32 (s.inBuf.readBytes 0 4)).toNat ≤ a → t.cpay.read a = s.cpay.read a) ∧
    (exec .serialize s = .next t →
      t = { s with out := t.out, outLen := t.outLen, err := t.err } ∧
      ∀ a, 12 + s.clen.toNat ≤ a → t.out.read a = s.out.read a) ∧
    (exec .crcInit s = .next t ∨ exec .crcFeed s = .next t → t = { s with crcAcc := t.crcAcc, err := t.err })

/-- R16, R257: a command that fails writes ERR and leaves every other piece of state as it was. -/
def Obligations.FailedCommandWritesOnlyErr : Prop :=
  ∀ (i : Instr) (s t : State), i.runsCommandWord = true → exec i s = .next t → t.err ≠ 0 →
    t = { s with err := t.err }

/-- R250: the codes each command can report, and the one code an illegal word written to CMD reports. -/
def Obligations.EachCommandReportsItsOwnCodes : Prop :=
  (∀ (c : Command) (s t : State), exec c.toInstr s = .next t →
    t.err ∈ (match c with
      | .nop | .crcInit | .crcFeed => [0]
      | .tagFromBytes => [0, 1]
      | .tagFromText => [0, 1, 2]
      | .chunkNew => [0, 6]
      | .decode => [0, 1, 3, 4]
      | .serialize => [0, 7]
      | .utf8Check => [0, 5, 7] : List (BitVec 4))) ∧
  (∀ (w : Word) (e : DecodeError) (s t : State), decodeCommand w = .error e → exec (.regWr 0x00#32 w) s = .next t →
    t.err = 8)

/-- R259: a command that failed, repeated at once, reports the same code and changes nothing. -/
def Obligations.RepeatedFailureReportsTheSameCode : Prop :=
  ∀ (i : Instr) (s t : State), i.runsCommandWord = true → exec i s = .next t → t.err ≠ 0 → exec i t = .next t

/-- R61, R33: no command writes IN or IN_LEN; only an accepted IN_WR changes a byte of IN, and no instruction at all changes
the configuration or what the host still has to send. -/
def Obligations.OnlyTheHostWritesTheInput : Prop :=
  ∀ (i : Instr) (s t : State), exec i s = .next t →
    (i.runsCommandWord = true → t.inBuf = s.inBuf ∧ t.inLen = s.inLen ∧ t.arg = s.arg ∧ t.reads = s.reads) ∧
    ((∀ a v, i ≠ .inWr a v) → t.inBuf = s.inBuf) ∧
    t.cfg = s.cfg ∧ t.host = s.host

/-! ### Host programs -/

/-- R101: the transactions that `load` stands for leave IN[0..k) holding its bytes and IN_LEN = k, and nothing else changed
but what the host still has to send. -/
def Obligations.LoadPlacesTheOperand : Prop :=
  ∀ (s : State) (bytes : List Byte), s.cfg.wellFormed → s.inBuf.wf → bytes.length ≤ s.cfg.inCap →
    ∃ r, runEvents ((Program.transactions [.load (bytes.map BitVec.toNat)]).map HostEvent.bus) s = some r ∧
      r.errs = [] ∧ r.final.inLen.toNat = bytes.length ∧ r.final.operand = bytes ∧
      (∀ a, bytes.length ≤ a → r.final.inBuf.read a = s.inBuf.read a) ∧
      r.final = { s with inBuf := r.final.inBuf, inLen := r.final.inLen, host := [] }

/-- R293, R251: a run that starts with BUSERR = 0, writes no command and does not clear BUSERR went wrong exactly when the
port refused one of its transactions. -/
def Obligations.RunWithoutCommandsGoesWrongExactlyByRefusal : Prop :=
  ∀ (s : State) (p : List HostBus) (r : Report), s.busErr = false →
    (∀ t ∈ p, (decodeRecord t).isCmdWrite = false ∧
      ¬ ∃ v : Word, decodeRecord t = .regWr 0x04#32 v ∧ v.getLsbD 16 = true) →
    runEvents (p.map HostEvent.bus) s = some r →
    (wentWrong s [] r = true ↔ ∃ t ∈ p, busRefused s.cfg (decodeRecord t) = true)

/-! ### Invariants -/

/-- R43 to R45 at reset: the state after a reset of any legal instance, with any draw, meets the invariant, and so does
`State.reset`. -/
def Obligations.InvariantHoldsAfterReset : Prop :=
  (∀ (c : Config) (d : ResetDraw), c.wellFormed → (State.powerOn c d).Inv) ∧ State.reset.Inv

/-- R43, R44, R45, R27: every step, whatever the host sends, keeps the invariant. -/
def Obligations.StepKeepsInvariant : Prop :=
  ∀ s t : State, s.Inv → step s = .next t → t.Inv

/-- R66: from a state that meets the invariant no step stops: no command leaves a buffer, and nothing is refused. -/
def Obligations.NoStepStops : Prop :=
  ∀ s : State, s.Inv → ∃ t, step s = .next t
end

