-- ==== Sys2Proof/Laws/Memory.lean ====
section
/-!
SUPPORT. What one buffer does: read after write, and that every memory operation keeps the canonical form and stays within
the addresses it is given.
-/

namespace Sys2Proof.Machine.Memory

@[simp] theorem read_nil (a : Nat) : read [] a = unlisted := rfl

theorem read_cons (k a : Nat) (v : Byte) (m : Memory) :
    read ((k, v) :: m) a = if k = a then v else read m a := rfl

@[simp] theorem wf_nil : wf [] := ⟨List.Pairwise.nil, by simp⟩

theorem wf_cons {k : Nat} {v : Byte} {m : Memory} :
    wf ((k, v) :: m) ↔ (∀ p ∈ m, k < p.1) ∧ v ≠ unlisted ∧ wf m := by
  simp only [wf, List.pairwise_cons, List.forall_mem_cons]
  tauto

/-- An address below every listed one is unlisted. -/
theorem read_of_lt {m : Memory} {a : Nat} (h : ∀ p ∈ m, a < p.1) : read m a = unlisted := by
  induction m with
  | nil => rfl
  | cons c m ih =>
    obtain ⟨k, v⟩ := c
    have hk : a < k := h (k, v) (by simp)
    rw [read_cons, if_neg (by omega)]
    exact ih fun p hp => h p (by simp [hp])

/-- Where the cells of a written buffer come from. -/
theorem mem_write {m : Memory} {a : Nat} {b : Byte} {p : Nat × Byte} (h : p ∈ write m a b) :
    p ∈ m ∨ (p = (a, b) ∧ b ≠ unlisted) := by
  induction m with
  | nil =>
    by_cases hb : b = unlisted <;> simp [write, hb] at h
    exact .inr ⟨h, hb⟩
  | cons c m ih =>
    obtain ⟨k, v⟩ := c
    simp only [write] at h
    split at h
    · split at h
      · exact .inl h
      · rcases List.mem_cons.1 h with h | h
        · exact .inr ⟨h, ‹_›⟩
        · exact .inl h
    · split at h
      · split at h
        · exact .inl (List.mem_cons_of_mem _ h)
        · rcases List.mem_cons.1 h with h | h
          · exact .inr ⟨h, ‹_›⟩
          · exact .inl (List.mem_cons_of_mem _ h)
      · rcases List.mem_cons.1 h with h | h
        · exact .inl (by simp [h])
        · exact (ih h).imp_left (List.mem_cons_of_mem _)

/-- A write keeps the canonical form. -/
theorem wf_write {m : Memory} (h : wf m) (a : Nat) (b : Byte) : wf (write m a b) := by
  induction m with
  | nil =>
    by_cases hb : b = unlisted
    · rw [write, if_pos hb]
      exact wf_nil
    · rw [write, if_neg hb]
      exact wf_cons.2 ⟨by simp, hb, wf_nil⟩
  | cons c m ih =>
    obtain ⟨k, v⟩ := c
    obtain ⟨hlt, hv, hm⟩ := wf_cons.1 h
    simp only [write]
    split
    · split
      · exact h
      · refine wf_cons.2 ⟨fun p hp => ?_, ‹_›, h⟩
        rcases List.mem_cons.1 hp with rfl | hp
        · assumption
        · have := hlt p hp
          omega
    · split
      · split
        · exact hm
        · subst_vars
          exact wf_cons.2 ⟨hlt, ‹_›, hm⟩
      · refine wf_cons.2 ⟨fun p hp => ?_, hv, ih hm⟩
        rcases mem_write hp with hp | ⟨rfl, -⟩
        · exact hlt p hp
        · show k < a
          omega

/-- A write below the capacity stays below it. -/
theorem within_write {cap : Nat} {m : Memory} (h : within cap m) {a : Nat} (ha : a < cap) (b : Byte) :
    within cap (write m a b) := by
  intro p hp
  rcases mem_write hp with hp | ⟨rfl, -⟩
  · exact h p hp
  · exact ha

/-- Read after write: the written byte at its address, every other byte as before. -/
theorem read_write {m : Memory} (h : wf m) (a k : Nat) (b : Byte) :
    read (write m a b) k = if k = a then b else read m k := by
  induction m with
  | nil =>
    by_cases hb : b = unlisted
    · simp [write, hb]
    · by_cases hk : k = a
      · simp [write, hb, read_cons, hk]
      · simp [write, hb, read_cons, hk, Ne.symm hk]
  | cons c m ih =>
    obtain ⟨j, v⟩ := c
    obtain ⟨hlt, hv, hm⟩ := wf_cons.1 h
    have below : ∀ x, x ≤ j → x ≠ j → read ((j, v) :: m) x = unlisted := fun x hx hne =>
      read_of_lt fun p hp => by
        rcases List.mem_cons.1 hp with rfl | hp
        · show x < j
          omega
        · have := hlt p hp
          omega
    simp only [write]
    split
    · split
      · by_cases hk : k = a
        · rw [if_pos hk, hk, below a (by omega) (by omega)]
          exact Eq.symm ‹_›
        · rw [if_neg hk]
      · rw [read_cons]
        by_cases hk : k = a
        · rw [if_pos hk.symm, if_pos hk]
        · rw [if_neg (Ne.symm hk), if_neg hk]
    · split
      · rename_i haj
        subst haj
        by_cases hk : k = a
        · subst hk
          split
          · rw [if_pos rfl, read_of_lt hlt]
            exact Eq.symm ‹_›
          · rw [read_cons, if_pos rfl, if_pos rfl]
        · split
          · rw [read_cons, if_neg (Ne.symm hk)]
          · rw [read_cons, read_cons, if_neg (Ne.symm hk), if_neg (Ne.symm hk)]
      · rw [read_cons, read_cons, ih hm]
        by_cases hk : k = a
        · subst hk
          rw [if_neg (by omega), if_pos rfl, if_pos rfl]
        · rw [if_neg hk, if_neg hk]

theorem wf_writeBytes {m : Memory} (h : wf m) (a : Nat) (bs : List Byte) : wf (writeBytes m a bs) := by
  induction bs generalizing m a with
  | nil => exact h
  | cons b bs ih => exact ih (wf_write h a b) (a + 1)

theorem within_writeBytes {cap : Nat} {m : Memory} (h : within cap m) {a : Nat} {bs : List Byte}
    (ha : a + bs.length ≤ cap) : within cap (writeBytes m a bs) := by
  induction bs generalizing m a with
  | nil => exact h
  | cons b bs ih =>
    simp only [List.length_cons] at ha
    exact ih (within_write h (by omega) b) (by omega)

/-- Read after MemWrite: the stored sequence at its addresses, every other byte as before (R14). -/
theorem read_writeBytes {m : Memory} (h : wf m) (a k : Nat) (bs : List Byte) :
    read (writeBytes m a bs) k =
      if a ≤ k ∧ k < a + bs.length then bs.getD (k - a) unlisted else read m k := by
  induction bs generalizing m a with
  | nil =>
    rw [if_neg (by simp only [List.length_nil]; omega)]
    rfl
  | cons b bs ih =>
    simp only [writeBytes, ih (wf_write h a b), read_write h, List.length_cons]
    by_cases hk : k = a
    · subst hk
      rw [if_neg (by omega), if_pos rfl, if_pos (by omega)]
      simp
    · by_cases hr : a + 1 ≤ k ∧ k < a + 1 + bs.length
      · rw [if_pos hr, if_pos (by omega)]
        obtain ⟨j, rfl⟩ : ∃ j, k = a + 1 + j := ⟨k - (a + 1), by omega⟩
        have e1 : a + 1 + j - (a + 1) = j := by omega
        have e2 : a + 1 + j - a = j + 1 := by omega
        rw [e1, e2]
        simp
      · rw [if_neg hr, if_neg hk, if_neg (by omega)]

@[simp] theorem length_readBytes (m : Memory) (a n : Nat) : (readBytes m a n).length = n := by
  induction n generalizing a with
  | zero => rfl
  | succ n ih => simp [readBytes, ih]

theorem getD_readBytes (m : Memory) (a : Nat) {n i : Nat} (h : i < n) :
    (readBytes m a n).getD i unlisted = read m (a + i) := by
  induction n generalizing a i with
  | zero => omega
  | succ n ih =>
    cases i with
    | zero => simp [readBytes]
    | succ i =>
      have := ih (a + 1) (i := i) (by omega)
      simp only [readBytes, List.getD_cons_succ, this]
      congr 1
      omega

/-- Two buffers that agree on a range give the same sequence. -/
theorem readBytes_congr {m m' : Memory} {a n : Nat} (h : ∀ k, a ≤ k → k < a + n → read m k = read m' k) :
    readBytes m a n = readBytes m' a n := by
  induction n generalizing a with
  | zero => rfl
  | succ n ih =>
    simp only [readBytes]
    rw [h a (by omega) (by omega), ih fun k hk hk' => h k (by omega) (by omega)]

/-- A read of i + j bytes is a read of i bytes and a read of the j bytes after them. -/
theorem readBytes_add (m : Memory) (a i j : Nat) :
    readBytes m a (i + j) = readBytes m a i ++ readBytes m (a + i) j := by
  induction i generalizing a with
  | zero => simp [readBytes]
  | succ i ih =>
    have e : i + 1 + j = (i + j) + 1 := by omega
    have e' : a + (i + 1) = a + 1 + i := by omega
    simp [e, e', readBytes, ih]

/-- MemRead after MemWrite gives the sequence written. -/
theorem readBytes_writeBytes {m : Memory} (h : wf m) (a : Nat) (bs : List Byte) :
    readBytes (writeBytes m a bs) a bs.length = bs := by
  apply List.ext_getElem (by simp)
  intro i hi hi'
  have key := getD_readBytes (writeBytes m a bs) a (n := bs.length) (i := i) (by simpa using hi')
  rw [read_writeBytes h, if_pos (by omega), Nat.add_sub_cancel_left] at key
  simpa [List.getD_eq_getElem?_getD, hi', hi] using key

/-- Equal memories are equal data: two canonical buffers with the same bytes are the same list. -/
theorem ext {m m' : Memory} (h : wf m) (h' : wf m') (he : ∀ a, read m a = read m' a) : m = m' := by
  induction m generalizing m' with
  | nil =>
    cases m' with
    | nil => rfl
    | cons c m' =>
      obtain ⟨k, v⟩ := c
      have := he k
      rw [read_cons, if_pos rfl] at this
      exact absurd this.symm (wf_cons.1 h').2.1
  | cons c m ih =>
    obtain ⟨k, v⟩ := c
    obtain ⟨hlt, hv, hm⟩ := wf_cons.1 h
    cases m' with
    | nil =>
      have := he k
      rw [read_cons, if_pos rfl] at this
      exact absurd this hv
    | cons c' m' =>
      obtain ⟨k', v'⟩ := c'
      obtain ⟨hlt', hv', hm'⟩ := wf_cons.1 h'
      have hkk : k = k' := by
        rcases Nat.lt_trichotomy k k' with hk | hk | hk
        · have e := he k
          rw [read_cons, if_pos rfl, read_of_lt (m := (k', v') :: m') (a := k) (by
            intro p hp
            rcases List.mem_cons.1 hp with rfl | hp
            · exact hk
            · exact hk.trans (hlt' p hp))] at e
          exact absurd e hv
        · exact hk
        · have e := he k'
          rw [read_cons k', if_pos rfl, read_of_lt (m := (k, v) :: m) (a := k') (by
            intro p hp
            rcases List.mem_cons.1 hp with rfl | hp
            · exact hk
            · exact hk.trans (hlt p hp))] at e
          exact absurd e.symm hv'
      subst hkk
      have hvv : v = v' := by simpa [read_cons] using he k
      subst hvv
      congr 1
      refine ih hm hm' fun a => ?_
      by_cases ha : k = a
      · subst ha
        rw [read_of_lt hlt, read_of_lt hlt']
      · simpa [read_cons, ha] using he a

theorem wf_ofDraw (cap : Nat) (draw : List Byte) : wf (ofDraw cap draw) := wf_writeBytes wf_nil 0 _

theorem within_ofDraw (cap : Nat) (draw : List Byte) : within cap (ofDraw cap draw) :=
  within_writeBytes (fun _ h => absurd h List.not_mem_nil) (by simp)

/-- After a reset the bytes below the capacity are those of the draw (R281). -/
theorem read_ofDraw {cap : Nat} (draw : List Byte) {a : Nat} (h : a < cap) :
    read (ofDraw cap draw) a = draw.getD a unlisted := by
  rw [ofDraw, read_writeBytes wf_nil]
  by_cases ha : a < draw.length
  · rw [if_pos (by simp only [List.length_take]; omega)]
    simp [List.getD_eq_getElem?_getD, h]
  · rw [if_neg (by simp only [List.length_take]; omega)]
    simp [List.getD_eq_getElem?_getD, Nat.le_of_not_lt ha]

end Sys2Proof.Machine.Memory
end

