-- ==== Sys2Proof/Laws/State.lean ====
section
/-!
SUPPORT. One lemma per field per update of State, each true by rfl, so that no later proof unfolds a record update.
-/

namespace Sys2Proof.Machine.State

/-! ### s.fail e -/

@[simp] theorem fail_cfg (s : State) (e : ErrorKind) : (s.fail e).cfg = s.cfg := rfl
@[simp] theorem fail_err (s : State) (e : ErrorKind) : (s.fail e).err = e.code := rfl
@[simp] theorem fail_tagValid (s : State) (e : ErrorKind) : (s.fail e).tagValid = s.tagValid := rfl
@[simp] theorem fail_chunkValid (s : State) (e : ErrorKind) : (s.fail e).chunkValid = s.chunkValid := rfl
@[simp] theorem fail_busErr (s : State) (e : ErrorKind) : (s.fail e).busErr = s.busErr := rfl
@[simp] theorem fail_arg (s : State) (e : ErrorKind) : (s.fail e).arg = s.arg := rfl
@[simp] theorem fail_inLen (s : State) (e : ErrorKind) : (s.fail e).inLen = s.inLen := rfl
@[simp] theorem fail_tag (s : State) (e : ErrorKind) : (s.fail e).tag = s.tag := rfl
@[simp] theorem fail_clen (s : State) (e : ErrorKind) : (s.fail e).clen = s.clen := rfl
@[simp] theorem fail_ccrc (s : State) (e : ErrorKind) : (s.fail e).ccrc = s.ccrc := rfl
@[simp] theorem fail_outLen (s : State) (e : ErrorKind) : (s.fail e).outLen = s.outLen := rfl
@[simp] theorem fail_crcAcc (s : State) (e : ErrorKind) : (s.fail e).crcAcc = s.crcAcc := rfl
@[simp] theorem fail_inBuf (s : State) (e : ErrorKind) : (s.fail e).inBuf = s.inBuf := rfl
@[simp] theorem fail_cpay (s : State) (e : ErrorKind) : (s.fail e).cpay = s.cpay := rfl
@[simp] theorem fail_out (s : State) (e : ErrorKind) : (s.fail e).out = s.out := rfl
@[simp] theorem fail_host (s : State) (e : ErrorKind) : (s.fail e).host = s.host := rfl
@[simp] theorem fail_reads (s : State) (e : ErrorKind) : (s.fail e).reads = s.reads := rfl

/-! ### s.succeed -/

@[simp] theorem succeed_cfg (s : State) : (s.succeed).cfg = s.cfg := rfl
@[simp] theorem succeed_err (s : State) : (s.succeed).err = 0 := rfl
@[simp] theorem succeed_tagValid (s : State) : (s.succeed).tagValid = s.tagValid := rfl
@[simp] theorem succeed_chunkValid (s : State) : (s.succeed).chunkValid = s.chunkValid := rfl
@[simp] theorem succeed_busErr (s : State) : (s.succeed).busErr = s.busErr := rfl
@[simp] theorem succeed_arg (s : State) : (s.succeed).arg = s.arg := rfl
@[simp] theorem succeed_inLen (s : State) : (s.succeed).inLen = s.inLen := rfl
@[simp] theorem succeed_tag (s : State) : (s.succeed).tag = s.tag := rfl
@[simp] theorem succeed_clen (s : State) : (s.succeed).clen = s.clen := rfl
@[simp] theorem succeed_ccrc (s : State) : (s.succeed).ccrc = s.ccrc := rfl
@[simp] theorem succeed_outLen (s : State) : (s.succeed).outLen = s.outLen := rfl
@[simp] theorem succeed_crcAcc (s : State) : (s.succeed).crcAcc = s.crcAcc := rfl
@[simp] theorem succeed_inBuf (s : State) : (s.succeed).inBuf = s.inBuf := rfl
@[simp] theorem succeed_cpay (s : State) : (s.succeed).cpay = s.cpay := rfl
@[simp] theorem succeed_out (s : State) : (s.succeed).out = s.out := rfl
@[simp] theorem succeed_host (s : State) : (s.succeed).host = s.host := rfl
@[simp] theorem succeed_reads (s : State) : (s.succeed).reads = s.reads := rfl

/-! ### s.raiseBusError -/

@[simp] theorem raiseBusError_cfg (s : State) : (s.raiseBusError).cfg = s.cfg := rfl
@[simp] theorem raiseBusError_err (s : State) : (s.raiseBusError).err = s.err := rfl
@[simp] theorem raiseBusError_tagValid (s : State) : (s.raiseBusError).tagValid = s.tagValid := rfl
@[simp] theorem raiseBusError_chunkValid (s : State) : (s.raiseBusError).chunkValid = s.chunkValid := rfl
@[simp] theorem raiseBusError_busErr (s : State) : (s.raiseBusError).busErr = true := rfl
@[simp] theorem raiseBusError_arg (s : State) : (s.raiseBusError).arg = s.arg := rfl
@[simp] theorem raiseBusError_inLen (s : State) : (s.raiseBusError).inLen = s.inLen := rfl
@[simp] theorem raiseBusError_tag (s : State) : (s.raiseBusError).tag = s.tag := rfl
@[simp] theorem raiseBusError_clen (s : State) : (s.raiseBusError).clen = s.clen := rfl
@[simp] theorem raiseBusError_ccrc (s : State) : (s.raiseBusError).ccrc = s.ccrc := rfl
@[simp] theorem raiseBusError_outLen (s : State) : (s.raiseBusError).outLen = s.outLen := rfl
@[simp] theorem raiseBusError_crcAcc (s : State) : (s.raiseBusError).crcAcc = s.crcAcc := rfl
@[simp] theorem raiseBusError_inBuf (s : State) : (s.raiseBusError).inBuf = s.inBuf := rfl
@[simp] theorem raiseBusError_cpay (s : State) : (s.raiseBusError).cpay = s.cpay := rfl
@[simp] theorem raiseBusError_out (s : State) : (s.raiseBusError).out = s.out := rfl
@[simp] theorem raiseBusError_host (s : State) : (s.raiseBusError).host = s.host := rfl
@[simp] theorem raiseBusError_reads (s : State) : (s.raiseBusError).reads = s.reads := rfl

/-! ### s.answer v -/

@[simp] theorem answer_cfg (s : State) (v : Word) : (s.answer v).cfg = s.cfg := rfl
@[simp] theorem answer_err (s : State) (v : Word) : (s.answer v).err = s.err := rfl
@[simp] theorem answer_tagValid (s : State) (v : Word) : (s.answer v).tagValid = s.tagValid := rfl
@[simp] theorem answer_chunkValid (s : State) (v : Word) : (s.answer v).chunkValid = s.chunkValid := rfl
@[simp] theorem answer_busErr (s : State) (v : Word) : (s.answer v).busErr = s.busErr := rfl
@[simp] theorem answer_arg (s : State) (v : Word) : (s.answer v).arg = s.arg := rfl
@[simp] theorem answer_inLen (s : State) (v : Word) : (s.answer v).inLen = s.inLen := rfl
@[simp] theorem answer_tag (s : State) (v : Word) : (s.answer v).tag = s.tag := rfl
@[simp] theorem answer_clen (s : State) (v : Word) : (s.answer v).clen = s.clen := rfl
@[simp] theorem answer_ccrc (s : State) (v : Word) : (s.answer v).ccrc = s.ccrc := rfl
@[simp] theorem answer_outLen (s : State) (v : Word) : (s.answer v).outLen = s.outLen := rfl
@[simp] theorem answer_crcAcc (s : State) (v : Word) : (s.answer v).crcAcc = s.crcAcc := rfl
@[simp] theorem answer_inBuf (s : State) (v : Word) : (s.answer v).inBuf = s.inBuf := rfl
@[simp] theorem answer_cpay (s : State) (v : Word) : (s.answer v).cpay = s.cpay := rfl
@[simp] theorem answer_out (s : State) (v : Word) : (s.answer v).out = s.out := rfl
@[simp] theorem answer_host (s : State) (v : Word) : (s.answer v).host = s.host := rfl
@[simp] theorem answer_reads (s : State) (v : Word) : (s.answer v).reads = s.reads ++ [v] := rfl

/-! ### s.refuseRead -/

@[simp] theorem refuseRead_cfg (s : State) : (s.refuseRead).cfg = s.cfg := rfl
@[simp] theorem refuseRead_err (s : State) : (s.refuseRead).err = s.err := rfl
@[simp] theorem refuseRead_tagValid (s : State) : (s.refuseRead).tagValid = s.tagValid := rfl
@[simp] theorem refuseRead_chunkValid (s : State) : (s.refuseRead).chunkValid = s.chunkValid := rfl
@[simp] theorem refuseRead_busErr (s : State) : (s.refuseRead).busErr = true := rfl
@[simp] theorem refuseRead_arg (s : State) : (s.refuseRead).arg = s.arg := rfl
@[simp] theorem refuseRead_inLen (s : State) : (s.refuseRead).inLen = s.inLen := rfl
@[simp] theorem refuseRead_tag (s : State) : (s.refuseRead).tag = s.tag := rfl
@[simp] theorem refuseRead_clen (s : State) : (s.refuseRead).clen = s.clen := rfl
@[simp] theorem refuseRead_ccrc (s : State) : (s.refuseRead).ccrc = s.ccrc := rfl
@[simp] theorem refuseRead_outLen (s : State) : (s.refuseRead).outLen = s.outLen := rfl
@[simp] theorem refuseRead_crcAcc (s : State) : (s.refuseRead).crcAcc = s.crcAcc := rfl
@[simp] theorem refuseRead_inBuf (s : State) : (s.refuseRead).inBuf = s.inBuf := rfl
@[simp] theorem refuseRead_cpay (s : State) : (s.refuseRead).cpay = s.cpay := rfl
@[simp] theorem refuseRead_out (s : State) : (s.refuseRead).out = s.out := rfl
@[simp] theorem refuseRead_host (s : State) : (s.refuseRead).host = s.host := rfl
@[simp] theorem refuseRead_reads (s : State) : (s.refuseRead).reads = s.reads ++ [0] := rfl

/-! ### s.refuseWrite -/

@[simp] theorem refuseWrite_cfg (s : State) : (s.refuseWrite).cfg = s.cfg := rfl
@[simp] theorem refuseWrite_err (s : State) : (s.refuseWrite).err = s.err := rfl
@[simp] theorem refuseWrite_tagValid (s : State) : (s.refuseWrite).tagValid = s.tagValid := rfl
@[simp] theorem refuseWrite_chunkValid (s : State) : (s.refuseWrite).chunkValid = s.chunkValid := rfl
@[simp] theorem refuseWrite_busErr (s : State) : (s.refuseWrite).busErr = true := rfl
@[simp] theorem refuseWrite_arg (s : State) : (s.refuseWrite).arg = s.arg := rfl
@[simp] theorem refuseWrite_inLen (s : State) : (s.refuseWrite).inLen = s.inLen := rfl
@[simp] theorem refuseWrite_tag (s : State) : (s.refuseWrite).tag = s.tag := rfl
@[simp] theorem refuseWrite_clen (s : State) : (s.refuseWrite).clen = s.clen := rfl
@[simp] theorem refuseWrite_ccrc (s : State) : (s.refuseWrite).ccrc = s.ccrc := rfl
@[simp] theorem refuseWrite_outLen (s : State) : (s.refuseWrite).outLen = s.outLen := rfl
@[simp] theorem refuseWrite_crcAcc (s : State) : (s.refuseWrite).crcAcc = s.crcAcc := rfl
@[simp] theorem refuseWrite_inBuf (s : State) : (s.refuseWrite).inBuf = s.inBuf := rfl
@[simp] theorem refuseWrite_cpay (s : State) : (s.refuseWrite).cpay = s.cpay := rfl
@[simp] theorem refuseWrite_out (s : State) : (s.refuseWrite).out = s.out := rfl
@[simp] theorem refuseWrite_host (s : State) : (s.refuseWrite).host = s.host := rfl
@[simp] theorem refuseWrite_reads (s : State) : (s.refuseWrite).reads = s.reads := rfl

/-! ### s.setBuf .inBuf m -/

@[simp] theorem setIn_cfg (s : State) (m : Memory) : (s.setBuf .inBuf m).cfg = s.cfg := rfl
@[simp] theorem setIn_err (s : State) (m : Memory) : (s.setBuf .inBuf m).err = s.err := rfl
@[simp] theorem setIn_tagValid (s : State) (m : Memory) : (s.setBuf .inBuf m).tagValid = s.tagValid := rfl
@[simp] theorem setIn_chunkValid (s : State) (m : Memory) : (s.setBuf .inBuf m).chunkValid = s.chunkValid := rfl
@[simp] theorem setIn_busErr (s : State) (m : Memory) : (s.setBuf .inBuf m).busErr = s.busErr := rfl
@[simp] theorem setIn_arg (s : State) (m : Memory) : (s.setBuf .inBuf m).arg = s.arg := rfl
@[simp] theorem setIn_inLen (s : State) (m : Memory) : (s.setBuf .inBuf m).inLen = s.inLen := rfl
@[simp] theorem setIn_tag (s : State) (m : Memory) : (s.setBuf .inBuf m).tag = s.tag := rfl
@[simp] theorem setIn_clen (s : State) (m : Memory) : (s.setBuf .inBuf m).clen = s.clen := rfl
@[simp] theorem setIn_ccrc (s : State) (m : Memory) : (s.setBuf .inBuf m).ccrc = s.ccrc := rfl
@[simp] theorem setIn_outLen (s : State) (m : Memory) : (s.setBuf .inBuf m).outLen = s.outLen := rfl
@[simp] theorem setIn_crcAcc (s : State) (m : Memory) : (s.setBuf .inBuf m).crcAcc = s.crcAcc := rfl
@[simp] theorem setIn_inBuf (s : State) (m : Memory) : (s.setBuf .inBuf m).inBuf = m := rfl
@[simp] theorem setIn_cpay (s : State) (m : Memory) : (s.setBuf .inBuf m).cpay = s.cpay := rfl
@[simp] theorem setIn_out (s : State) (m : Memory) : (s.setBuf .inBuf m).out = s.out := rfl
@[simp] theorem setIn_host (s : State) (m : Memory) : (s.setBuf .inBuf m).host = s.host := rfl
@[simp] theorem setIn_reads (s : State) (m : Memory) : (s.setBuf .inBuf m).reads = s.reads := rfl

/-! ### s.setBuf .cpay m -/

@[simp] theorem setCpay_cfg (s : State) (m : Memory) : (s.setBuf .cpay m).cfg = s.cfg := rfl
@[simp] theorem setCpay_err (s : State) (m : Memory) : (s.setBuf .cpay m).err = s.err := rfl
@[simp] theorem setCpay_tagValid (s : State) (m : Memory) : (s.setBuf .cpay m).tagValid = s.tagValid := rfl
@[simp] theorem setCpay_chunkValid (s : State) (m : Memory) : (s.setBuf .cpay m).chunkValid = s.chunkValid := rfl
@[simp] theorem setCpay_busErr (s : State) (m : Memory) : (s.setBuf .cpay m).busErr = s.busErr := rfl
@[simp] theorem setCpay_arg (s : State) (m : Memory) : (s.setBuf .cpay m).arg = s.arg := rfl
@[simp] theorem setCpay_inLen (s : State) (m : Memory) : (s.setBuf .cpay m).inLen = s.inLen := rfl
@[simp] theorem setCpay_tag (s : State) (m : Memory) : (s.setBuf .cpay m).tag = s.tag := rfl
@[simp] theorem setCpay_clen (s : State) (m : Memory) : (s.setBuf .cpay m).clen = s.clen := rfl
@[simp] theorem setCpay_ccrc (s : State) (m : Memory) : (s.setBuf .cpay m).ccrc = s.ccrc := rfl
@[simp] theorem setCpay_outLen (s : State) (m : Memory) : (s.setBuf .cpay m).outLen = s.outLen := rfl
@[simp] theorem setCpay_crcAcc (s : State) (m : Memory) : (s.setBuf .cpay m).crcAcc = s.crcAcc := rfl
@[simp] theorem setCpay_inBuf (s : State) (m : Memory) : (s.setBuf .cpay m).inBuf = s.inBuf := rfl
@[simp] theorem setCpay_cpay (s : State) (m : Memory) : (s.setBuf .cpay m).cpay = m := rfl
@[simp] theorem setCpay_out (s : State) (m : Memory) : (s.setBuf .cpay m).out = s.out := rfl
@[simp] theorem setCpay_host (s : State) (m : Memory) : (s.setBuf .cpay m).host = s.host := rfl
@[simp] theorem setCpay_reads (s : State) (m : Memory) : (s.setBuf .cpay m).reads = s.reads := rfl

/-! ### s.setBuf .out m -/

@[simp] theorem setOut_cfg (s : State) (m : Memory) : (s.setBuf .out m).cfg = s.cfg := rfl
@[simp] theorem setOut_err (s : State) (m : Memory) : (s.setBuf .out m).err = s.err := rfl
@[simp] theorem setOut_tagValid (s : State) (m : Memory) : (s.setBuf .out m).tagValid = s.tagValid := rfl
@[simp] theorem setOut_chunkValid (s : State) (m : Memory) : (s.setBuf .out m).chunkValid = s.chunkValid := rfl
@[simp] theorem setOut_busErr (s : State) (m : Memory) : (s.setBuf .out m).busErr = s.busErr := rfl
@[simp] theorem setOut_arg (s : State) (m : Memory) : (s.setBuf .out m).arg = s.arg := rfl
@[simp] theorem setOut_inLen (s : State) (m : Memory) : (s.setBuf .out m).inLen = s.inLen := rfl
@[simp] theorem setOut_tag (s : State) (m : Memory) : (s.setBuf .out m).tag = s.tag := rfl
@[simp] theorem setOut_clen (s : State) (m : Memory) : (s.setBuf .out m).clen = s.clen := rfl
@[simp] theorem setOut_ccrc (s : State) (m : Memory) : (s.setBuf .out m).ccrc = s.ccrc := rfl
@[simp] theorem setOut_outLen (s : State) (m : Memory) : (s.setBuf .out m).outLen = s.outLen := rfl
@[simp] theorem setOut_crcAcc (s : State) (m : Memory) : (s.setBuf .out m).crcAcc = s.crcAcc := rfl
@[simp] theorem setOut_inBuf (s : State) (m : Memory) : (s.setBuf .out m).inBuf = s.inBuf := rfl
@[simp] theorem setOut_cpay (s : State) (m : Memory) : (s.setBuf .out m).cpay = s.cpay := rfl
@[simp] theorem setOut_out (s : State) (m : Memory) : (s.setBuf .out m).out = m := rfl
@[simp] theorem setOut_host (s : State) (m : Memory) : (s.setBuf .out m).host = s.host := rfl
@[simp] theorem setOut_reads (s : State) (m : Memory) : (s.setBuf .out m).reads = s.reads := rfl

/-! ### s.takeReset d -/

@[simp] theorem takeReset_cfg (s : State) (d : ResetDraw) : (s.takeReset d).cfg = s.cfg := rfl
@[simp] theorem takeReset_err (s : State) (d : ResetDraw) : (s.takeReset d).err = 0 := rfl
@[simp] theorem takeReset_tagValid (s : State) (d : ResetDraw) : (s.takeReset d).tagValid = false := rfl
@[simp] theorem takeReset_chunkValid (s : State) (d : ResetDraw) : (s.takeReset d).chunkValid = false := rfl
@[simp] theorem takeReset_busErr (s : State) (d : ResetDraw) : (s.takeReset d).busErr = false := rfl
@[simp] theorem takeReset_arg (s : State) (d : ResetDraw) : (s.takeReset d).arg = 0 := rfl
@[simp] theorem takeReset_inLen (s : State) (d : ResetDraw) : (s.takeReset d).inLen = 0 := rfl
@[simp] theorem takeReset_tag (s : State) (d : ResetDraw) : (s.takeReset d).tag = 0 := rfl
@[simp] theorem takeReset_clen (s : State) (d : ResetDraw) : (s.takeReset d).clen = 0 := rfl
@[simp] theorem takeReset_ccrc (s : State) (d : ResetDraw) : (s.takeReset d).ccrc = 0 := rfl
@[simp] theorem takeReset_outLen (s : State) (d : ResetDraw) : (s.takeReset d).outLen = 0 := rfl
@[simp] theorem takeReset_crcAcc (s : State) (d : ResetDraw) : (s.takeReset d).crcAcc = 0xFFFFFFFF#32 := rfl
@[simp] theorem takeReset_inBuf (s : State) (d : ResetDraw) : (s.takeReset d).inBuf = Memory.ofDraw s.cfg.inCap d.inBuf := rfl
@[simp] theorem takeReset_cpay (s : State) (d : ResetDraw) : (s.takeReset d).cpay = Memory.ofDraw s.cfg.cpayCap d.cpay := rfl
@[simp] theorem takeReset_out (s : State) (d : ResetDraw) : (s.takeReset d).out = Memory.ofDraw s.cfg.outCap d.out := rfl
@[simp] theorem takeReset_host (s : State) (d : ResetDraw) : (s.takeReset d).host = s.host := rfl
@[simp] theorem takeReset_reads (s : State) (d : ResetDraw) : (s.takeReset d).reads = s.reads := rfl

/-! ### Buffers and capacities -/

@[simp] theorem buf_inBuf (s : State) : s.buf .inBuf = s.inBuf := rfl
@[simp] theorem buf_cpay (s : State) : s.buf .cpay = s.cpay := rfl
@[simp] theorem buf_out (s : State) : s.buf .out = s.out := rfl
@[simp] theorem cap_inBuf (s : State) : s.cap .inBuf = s.cfg.inCap := rfl
@[simp] theorem cap_cpay (s : State) : s.cap .cpay = s.cfg.cpayCap := rfl
@[simp] theorem cap_out (s : State) : s.cap .out = s.cfg.outCap := rfl

theorem cpayCap_eq (c : Config) : c.cpayCap = c.inCap := rfl
theorem outCap_eq (c : Config) : c.outCap = c.inCap + 12 := rfl

end Sys2Proof.Machine.State
end

