-- ==== Sys2Proof/Laws/Ops.lean ====
section
/-!
SUPPORT. Once for each shared operation: everything it can do, for later proofs to cite instead of unfolding it.
-/

namespace Sys2Proof.Machine

open State

/-! ### The memory primitives of a command -/

/-- In range, MemRead gives its bytes to the rest of the command. -/
theorem memRead_of_le {s : State} {b : Buf} {a n : Nat} (h : a + n ≤ s.cap b) (k : List Byte → StepResult State) :
    s.memRead b a n k = k ((s.buf b).readBytes a n) := if_pos h

theorem memRead_inBuf {s : State} {a n : Nat} (h : a + n ≤ s.cfg.inCap) (k : List Byte → StepResult State) :
    s.memRead .inBuf a n k = k (s.inBuf.readBytes a n) := memRead_of_le h k

theorem memRead_cpay {s : State} {a n : Nat} (h : a + n ≤ s.cfg.cpayCap) (k : List Byte → StepResult State) :
    s.memRead .cpay a n k = k (s.cpay.readBytes a n) := memRead_of_le h k

/-- In range, MemWrite goes on with the buffer written. -/
theorem memWrite_of_le {s : State} {b : Buf} {a : Nat} {bs : List Byte} (h : a + bs.length ≤ s.cap b)
    (k : State → StepResult State) :
    s.memWrite b a bs k = k (s.setBuf b ((s.buf b).writeBytes a bs)) := if_pos h

theorem memWrite_cpay {s : State} {a : Nat} {bs : List Byte} (h : a + bs.length ≤ s.cfg.cpayCap)
    (k : State → StepResult State) :
    s.memWrite .cpay a bs k = k { s with cpay := s.cpay.writeBytes a bs } := memWrite_of_le h k

theorem memWrite_out {s : State} {a : Nat} {bs : List Byte} (h : a + bs.length ≤ s.cfg.outCap)
    (k : State → StepResult State) :
    s.memWrite .out a bs k = k { s with out := s.out.writeBytes a bs } := memWrite_of_le h k

/-- A command goes on after a MemRead only in range. -/
theorem memRead_next {s t : State} {b : Buf} {a n : Nat} {k : List Byte → StepResult State}
    (h : s.memRead b a n k = .next t) : a + n ≤ s.cap b ∧ k ((s.buf b).readBytes a n) = .next t := by
  unfold memRead at h
  split at h
  · exact ⟨‹_›, h⟩
  · cases h

theorem memRead_inBuf_next {s t : State} {a n : Nat} {k : List Byte → StepResult State}
    (h : s.memRead .inBuf a n k = .next t) : a + n ≤ s.cfg.inCap ∧ k (s.inBuf.readBytes a n) = .next t :=
  memRead_next h

theorem memRead_cpay_next {s t : State} {a n : Nat} {k : List Byte → StepResult State}
    (h : s.memRead .cpay a n k = .next t) : a + n ≤ s.cfg.cpayCap ∧ k (s.cpay.readBytes a n) = .next t :=
  memRead_next h

/-- A command goes on after a MemWrite only in range. -/
theorem memWrite_next {s t : State} {b : Buf} {a : Nat} {bs : List Byte} {k : State → StepResult State}
    (h : s.memWrite b a bs k = .next t) :
    a + bs.length ≤ s.cap b ∧ k (s.setBuf b ((s.buf b).writeBytes a bs)) = .next t := by
  unfold memWrite at h
  split at h
  · exact ⟨‹_›, h⟩
  · cases h

theorem memWrite_cpay_next {s t : State} {a : Nat} {bs : List Byte} {k : State → StepResult State}
    (h : s.memWrite .cpay a bs k = .next t) :
    a + bs.length ≤ s.cfg.cpayCap ∧ k { s with cpay := s.cpay.writeBytes a bs } = .next t := memWrite_next h

theorem memWrite_out_next {s t : State} {a : Nat} {bs : List Byte} {k : State → StepResult State}
    (h : s.memWrite .out a bs k = .next t) :
    a + bs.length ≤ s.cfg.outCap ∧ k { s with out := s.out.writeBytes a bs } = .next t := memWrite_next h

/-! ### Byte order -/

/-- be_bytes undoes BE32 on 4 bytes (R12). -/
theorem beBytes_be32 (b0 b1 b2 b3 : Byte) : beBytes (be32 [b0, b1, b2, b3]) = [b0, b1, b2, b3] := by
  simp only [beBytes, be32, List.cons.injEq, and_true]
  refine ⟨?_, ?_, ?_, ?_⟩ <;>
  · ext i hi
    simp only [BitVec.getElem_extractLsb', BitVec.getLsbD_append]
    rw [← BitVec.getLsbD_eq_getElem]
    repeat' split
    all_goals first | omega | (congr 1; omega)

/-- BE32 undoes be_bytes (R12). -/
theorem be32_beBytes (v : Word) : be32 (beBytes v) = v := by
  simp only [be32, beBytes]
  ext i hi
  simp only [BitVec.getElem_append, BitVec.getElem_extractLsb']
  repeat' split
  all_goals (rw [← BitVec.getLsbD_eq_getElem]; congr 1; omega)

@[simp] theorem length_beBytes (v : Word) : (beBytes v).length = 4 := rfl

@[simp] theorem length_tagBytes (v : Word) : (tagBytes v).length = 4 := rfl

/-- A sequence of 4 bytes, byte by byte. -/
theorem eq_four_of_length {bs : List Byte} (h : bs.length = 4) : ∃ b0 b1 b2 b3, bs = [b0, b1, b2, b3] := by
  match bs, h with
  | [b0, b1, b2, b3], _ => exact ⟨b0, b1, b2, b3, rfl⟩

/-- The tag bytes of a tag assembled from 4 bytes are those bytes (R34). -/
theorem tagBytes_be32 {bs : List Byte} (h : bs.length = 4) : tagBytes (be32 bs) = bs := by
  obtain ⟨b0, b1, b2, b3, rfl⟩ := eq_four_of_length h
  exact beBytes_be32 b0 b1 b2 b3

@[simp] theorem length_layout (t p : List Byte) (c : Word) : (layout t p c).length = t.length + p.length + 8 := by
  simp only [layout, List.length_append, length_beBytes]
  omega

/-! ### The register map -/

/-- An offset names a register exactly when it is that register's (R21, R220). -/
theorem regAt_eq_some {a : Word} {r : Reg} : regAt a = some r ↔ a = r.offset := by
  constructor
  · intro h
    unfold regAt at h
    split at h
    · cases h
    · split at h <;> try cases h
      all_goals exact BitVec.eq_of_toNat_eq (by assumption)
  · rintro rfl
    cases r <;> rfl

@[simp] theorem regAt_offset (r : Reg) : regAt r.offset = some r := regAt_eq_some.2 rfl

/-- An offset names no register exactly when it is out of range, misaligned or reserved (R220). -/
theorem regAt_eq_none {a : Word} : regAt a = none ↔ 0x100 ≤ a.toNat ∨ a.extractLsb' 0 2 ≠ 0 ∨ 0x30 ≤ a.toNat := by
  constructor
  · intro h
    by_contra hc
    have hc' := hc
    simp only [not_or, not_not, Nat.not_le] at hc'
    obtain ⟨-, h4, h48⟩ := hc'
    have hmod : a.toNat % 4 = 0 := by
      have := congrArg BitVec.toNat h4
      simpa [BitVec.extractLsb'_toNat] using this
    unfold regAt at h
    rw [if_neg hc] at h
    have hcases : a.toNat = 0 ∨ a.toNat = 4 ∨ a.toNat = 8 ∨ a.toNat = 12 ∨ a.toNat = 16 ∨ a.toNat = 20 ∨
        a.toNat = 24 ∨ a.toNat = 28 ∨ a.toNat = 32 ∨ a.toNat = 36 ∨ a.toNat = 40 ∨ a.toNat = 44 := by omega
    rcases hcases with e | e | e | e | e | e | e | e | e | e | e | e <;> simp [e] at h
  · intro h
    unfold regAt
    rw [if_pos h]

/-! ### The two encodings -/

theorem decodeCommand_eq_ok {w : Word} {c : Command} : decodeCommand w = .ok c ↔ w = encodeCommand c := by
  constructor
  · intro h
    unfold decodeCommand at h
    split at h
    · cases h
    · rename_i hr
      simp only [ne_eq, not_not] at hr
      have h8 : (w.toNat >>> 8) % 2 ^ 24 = 0 := by
        have := congrArg BitVec.toNat hr
        simpa [rsvd, BitVec.extractLsb'_toNat] using this
      have hop : (opc w).toNat = w.toNat % 256 := by
        simp [opc, BitVec.extractLsb'_toNat]
      have hlt := w.isLt
      rw [Nat.shiftRight_eq_div_pow] at h8
      split at h <;> try cases h
      all_goals
        refine BitVec.eq_of_toNat_eq ?_
        simp only [encodeCommand, BitVec.toNat_ofNat]
        omega
  · rintro rfl
    cases c <;> rfl

@[simp] theorem decodeCommand_encodeCommand (c : Command) : decodeCommand (encodeCommand c) = .ok c :=
  decodeCommand_eq_ok.2 rfl

/-- A legal word written to CMD runs its command (R90). -/
theorem execCommandWord_of_ok {w : Word} {c : Command} (h : decodeCommand w = .ok c) (s : State) :
    execCommandWord w s = runCommand c s := by
  simp only [execCommandWord, h]

/-- An illegal word written to CMD reports IllegalCommand (R93). -/
theorem execCommandWord_of_error {w : Word} {e : DecodeError} (h : decodeCommand w = .error e) (s : State) :
    execCommandWord w s = .next (s.fail .illegalCommand) := by
  simp only [execCommandWord, h]

/-- Every word written to CMD runs one of the nine commands or reports IllegalCommand (R94). -/
theorem execCommandWord_cases (w : Word) (s : State) :
    (∃ c, w = encodeCommand c ∧ execCommandWord w s = runCommand c s) ∨
      execCommandWord w s = .next (s.fail .illegalCommand) := by
  cases h : decodeCommand w with
  | ok c => exact .inl ⟨c, decodeCommand_eq_ok.1 h, execCommandWord_of_ok h s⟩
  | error e => exact .inr (execCommandWord_of_error h s)

/-- A command's arm of exec is that command. -/
theorem exec_toInstr (c : Command) (s : State) : exec c.toInstr s = runCommand c s := by
  cases c <;> rfl

/-! ### The step -/

theorem step_bus {s : State} {t : HostBus} {rest : List HostEvent} (h : s.host = .bus t :: rest) :
    step s = exec (decodeRecord t) { s with host := rest } := by
  simp only [step, h]

theorem step_reset {s : State} {d : ResetDraw} {rest : List HostEvent} (h : s.host = .reset d :: rest) :
    step s = .next ({ s with host := rest }.takeReset d) := by
  simp only [step, h]

theorem step_idle {s : State} (h : s.host = []) : step s = .next s := by
  simp only [step, h]

/-- What a step can be: nothing, a reset, or one decoded transaction. -/
theorem step_cases (s : State) :
    (s.host = [] ∧ step s = .next s) ∨
    (∃ d rest, s.host = .reset d :: rest ∧ step s = .next ({ s with host := rest }.takeReset d)) ∨
    (∃ t rest, s.host = .bus t :: rest ∧ step s = exec (decodeRecord t) { s with host := rest }) := by
  cases h : s.host with
  | nil => exact .inl ⟨rfl, step_idle h⟩
  | cons e rest =>
    cases e with
    | bus t => exact .inr (.inr ⟨t, rest, rfl, step_bus h⟩)
    | reset d => exact .inr (.inl ⟨d, rest, rfl, step_reset h⟩)

/-! ### What each command can do when it answers a next state -/

theorem buildTag_cases (s : State) (t : List Byte) :
    (tagOk t = true ∧ buildTag s t = { s with tag := be32 t, tagValid := true, chunkValid := false, err := 0 }) ∨
    (tagOk t = false ∧ buildTag s t = s.fail .invalidTagByte) := by
  unfold buildTag
  by_cases h : tagOk t = true
  · rw [if_pos h]
    exact .inl ⟨h, rfl⟩
  · rw [if_neg h]
    exact .inr ⟨Bool.eq_false_of_not_eq_true h, rfl⟩

theorem execTagFromText_next {s t : State} (h : execTagFromText s = .next t) :
    (s.inLen.toNat ≠ 4 ∧ t = s.fail .wrongTagLength) ∨
    (s.inLen.toNat = 4 ∧ 4 ≤ s.cfg.inCap ∧ t = buildTag s (s.inBuf.readBytes 0 4)) := by
  unfold execTagFromText at h
  by_cases hn : s.inLen.toNat ≠ 4
  · rw [if_pos hn] at h
    cases h
    exact .inl ⟨hn, rfl⟩
  · rw [if_neg hn] at h
    obtain ⟨hle, h⟩ := memRead_inBuf_next h
    cases h
    exact .inr ⟨not_not.1 hn, by omega, rfl⟩

theorem execCrcFeed_next {s t : State} (h : execCrcFeed s = .next t) :
    s.inLen.toNat ≤ s.cfg.inCap ∧
      t = { s with crcAcc := crcUpdate s.crcAcc (s.inBuf.readBytes 0 s.inLen.toNat), err := 0 } := by
  obtain ⟨hle, h⟩ := memRead_inBuf_next h
  cases h
  exact ⟨by omega, rfl⟩

theorem execChunkNew_next {s t : State} (h : execChunkNew s = .next t) :
    (s.tagValid = false ∧ t = s.fail .noTag) ∨
    (s.tagValid = true ∧ s.inLen.toNat ≤ s.cfg.inCap ∧
      t = { s with
        cpay := s.cpay.writeBytes 0 (s.inBuf.readBytes 0 s.inLen.toNat)
        clen := s.inLen
        ccrc := crc32 (tagBytes s.tag ++ s.inBuf.readBytes 0 s.inLen.toNat)
        chunkValid := true
        err := 0 }) := by
  unfold execChunkNew at h
  by_cases hv : s.tagValid = false
  · rw [if_pos hv] at h
    cases h
    exact .inl ⟨hv, rfl⟩
  · rw [if_neg hv] at h
    obtain ⟨hle, h⟩ := memRead_inBuf_next h
    obtain ⟨-, h⟩ := memWrite_cpay_next h
    cases h
    exact .inr ⟨Bool.eq_true_of_not_eq_false hv, by omega, rfl⟩

theorem execSerialize_next {s t : State} (h : execSerialize s = .next t) :
    (s.chunkValid = false ∧ t = s.fail .noChunk) ∨
    (s.chunkValid = true ∧ s.clen.toNat ≤ s.cfg.cpayCap ∧
      t = { s with
        out := s.out.writeBytes 0
          (beBytes s.clen ++ tagBytes s.tag ++ s.cpay.readBytes 0 s.clen.toNat ++ beBytes s.ccrc)
        outLen := BitVec.ofNat 32 (12 + s.clen.toNat)
        err := 0 }) := by
  unfold execSerialize at h
  by_cases hv : s.chunkValid = false
  · rw [if_pos hv] at h
    cases h
    exact .inl ⟨hv, rfl⟩
  · rw [if_neg hv] at h
    obtain ⟨hle, h⟩ := memRead_cpay_next h
    obtain ⟨-, h⟩ := memWrite_out_next h
    cases h
    exact .inr ⟨Bool.eq_true_of_not_eq_false hv, by omega, rfl⟩

theorem execUtf8Check_next {s t : State} (h : execUtf8Check s = .next t) :
    (s.chunkValid = false ∧ t = s.fail .noChunk) ∨
    (s.chunkValid = true ∧ s.clen.toNat ≤ s.cfg.cpayCap ∧
      ((utf8WellFormed (s.cpay.readBytes 0 s.clen.toNat) = false ∧ t = s.fail .invalidUtf8) ∨
       (utf8WellFormed (s.cpay.readBytes 0 s.clen.toNat) = true ∧ t = s.succeed))) := by
  unfold execUtf8Check at h
  by_cases hv : s.chunkValid = false
  · rw [if_pos hv] at h
    cases h
    exact .inl ⟨hv, rfl⟩
  · rw [if_neg hv] at h
    obtain ⟨hle, h⟩ := memRead_cpay_next h
    refine .inr ⟨Bool.eq_true_of_not_eq_false hv, by omega, ?_⟩
    by_cases hu : utf8WellFormed (s.cpay.readBytes 0 s.clen.toNat) = false
    · rw [if_pos hu] at h
      cases h
      exact .inl ⟨hu, rfl⟩
    · rw [if_neg hu] at h
      cases h
      exact .inr ⟨Bool.eq_true_of_not_eq_false hu, rfl⟩

/-- DECODE in one case distinction (R142, R143, R254): which check fails first, or the chunk it takes. -/
theorem execDecode_next {s t : State} (h : execDecode s = .next t) :
    let n := s.inLen.toNat
    let lenBytes := s.inBuf.readBytes 0 4
    let tb := s.inBuf.readBytes 4 4
    let l := (be32 lenBytes).toNat
    let p := s.inBuf.readBytes 8 l
    let stored := be32 (s.inBuf.readBytes (8 + l) 4)
    (n < 12 ∧ t = s.fail .truncatedBuffer) ∨
    (12 ≤ n ∧ tagOk tb = false ∧ t = s.fail .invalidTagByte) ∨
    (12 ≤ n ∧ tagOk tb = true ∧ n < l + 12 ∧ t = s.fail .truncatedBuffer) ∨
    (l + 12 ≤ n ∧ tagOk tb = true ∧ crc32 (tb ++ p) ≠ stored ∧ t = s.fail .checksumMismatch) ∨
    (l + 12 ≤ n ∧ tagOk tb = true ∧ crc32 (tb ++ p) = stored ∧ l + 12 ≤ s.cfg.inCap ∧
      t = { s with
        cpay := s.cpay.writeBytes 0 p
        tag := be32 tb
        tagValid := true
        clen := be32 lenBytes
        ccrc := stored
        chunkValid := true
        err := 0 }) := by
  intro n lenBytes tb l p stored
  unfold execDecode at h
  by_cases hn : n < 12
  · rw [if_pos hn] at h
    cases h
    exact .inl ⟨hn, rfl⟩
  rw [if_neg hn] at h
  obtain ⟨-, h⟩ := memRead_inBuf_next h
  obtain ⟨-, h⟩ := memRead_inBuf_next h
  by_cases htag : tagOk tb = false
  · rw [if_pos htag] at h
    cases h
    exact .inr (.inl ⟨Nat.le_of_not_lt hn, htag, rfl⟩)
  rw [if_neg htag] at h
  replace htag : tagOk tb = true := Bool.eq_true_of_not_eq_false htag
  by_cases h8 : n < l + 8
  · rw [if_pos h8] at h
    cases h
    exact .inr (.inr (.inl ⟨Nat.le_of_not_lt hn, htag, by omega, rfl⟩))
  rw [if_neg h8] at h
  obtain ⟨-, h⟩ := memRead_inBuf_next h
  by_cases h12 : n < l + 8 + 4
  · rw [if_pos h12] at h
    cases h
    exact .inr (.inr (.inl ⟨Nat.le_of_not_lt hn, htag, by omega, rfl⟩))
  rw [if_neg h12] at h
  obtain ⟨hcap, h⟩ := memRead_inBuf_next h
  replace hcap : 8 + l + 4 ≤ s.cfg.inCap := hcap
  by_cases hcrc : crc32 (tb ++ p) ≠ stored
  · rw [if_pos hcrc] at h
    cases h
    exact .inr (.inr (.inr (.inl ⟨by omega, htag, hcrc, rfl⟩)))
  rw [if_neg hcrc] at h
  obtain ⟨-, h⟩ := memWrite_cpay_next h
  cases h
  exact .inr (.inr (.inr (.inr ⟨by omega, htag, not_not.1 hcrc, by omega, rfl⟩)))

/-! ### DECODE, forward: one lemma per outcome -/

theorem execDecode_short {s : State} (h : s.inLen.toNat < 12) : execDecode s = .next (s.fail .truncatedBuffer) := by
  unfold execDecode
  exact if_pos h

theorem execDecode_badTag {s : State} (hcap : 8 ≤ s.cfg.inCap) (hn : 12 ≤ s.inLen.toNat)
    (ht : tagOk (s.inBuf.readBytes 4 4) = false) :
    execDecode s = .next (s.fail .invalidTagByte) := by
  unfold execDecode
  refine (if_neg (by omega)).trans ?_
  rw [memRead_inBuf (by omega), memRead_inBuf (by omega)]
  exact if_pos ht

/-- Both later truncation checks are one: the buffer is shorter than 12 + L (R143). -/
theorem execDecode_truncated {s : State} (hcap : s.inLen.toNat ≤ s.cfg.inCap) (hn : 12 ≤ s.inLen.toNat)
    (ht : tagOk (s.inBuf.readBytes 4 4) = true) (hl : s.inLen.toNat < (be32 (s.inBuf.readBytes 0 4)).toNat + 12) :
    execDecode s = .next (s.fail .truncatedBuffer) := by
  unfold execDecode
  refine (if_neg (by omega)).trans ?_
  rw [memRead_inBuf (by omega), memRead_inBuf (by omega)]
  refine (if_neg (by simp [ht])).trans ?_
  by_cases h8 : s.inLen.toNat < (be32 (s.inBuf.readBytes 0 4)).toNat + 8
  · exact if_pos h8
  · refine (if_neg h8).trans ?_
    rw [memRead_inBuf (by omega)]
    exact if_pos (by omega)

theorem execDecode_mismatch {s : State} (hl : (be32 (s.inBuf.readBytes 0 4)).toNat + 12 ≤ s.inLen.toNat)
    (hcap : (be32 (s.inBuf.readBytes 0 4)).toNat + 12 ≤ s.cfg.inCap)
    (ht : tagOk (s.inBuf.readBytes 4 4) = true)
    (hc : crc32 (s.inBuf.readBytes 4 4 ++ s.inBuf.readBytes 8 (be32 (s.inBuf.readBytes 0 4)).toNat) ≠
      be32 (s.inBuf.readBytes (8 + (be32 (s.inBuf.readBytes 0 4)).toNat) 4)) :
    execDecode s = .next (s.fail .checksumMismatch) := by
  unfold execDecode
  refine (if_neg (by omega)).trans ?_
  rw [memRead_inBuf (by omega), memRead_inBuf (by omega)]
  refine (if_neg (by simp [ht])).trans ?_
  refine (if_neg (by omega)).trans ?_
  rw [memRead_inBuf (by omega)]
  refine (if_neg (by omega)).trans ?_
  rw [memRead_inBuf (by omega)]
  exact if_pos hc

/-- DECODE of a buffer that holds a whole chunk with a good tag and a matching checksum, wherever the trailing bytes end. -/
theorem execDecode_ok {s : State} {l : Nat} (he : (be32 (s.inBuf.readBytes 0 4)).toNat = l)
    (hl : l + 12 ≤ s.inLen.toNat) (hcap : l + 12 ≤ s.cfg.inCap) (ht : tagOk (s.inBuf.readBytes 4 4) = true)
    (hc : crc32 (s.inBuf.readBytes 4 4 ++ s.inBuf.readBytes 8 l) = be32 (s.inBuf.readBytes (8 + l) 4)) :
    execDecode s = .next { s with
      cpay := s.cpay.writeBytes 0 (s.inBuf.readBytes 8 l)
      tag := be32 (s.inBuf.readBytes 4 4)
      tagValid := true
      clen := be32 (s.inBuf.readBytes 0 4)
      ccrc := be32 (s.inBuf.readBytes (8 + l) 4)
      chunkValid := true
      err := 0 } := by
  subst he
  unfold execDecode
  refine (if_neg (by omega)).trans ?_
  rw [memRead_inBuf (by omega), memRead_inBuf (by omega)]
  refine (if_neg (by simp [ht])).trans ?_
  refine (if_neg (by omega)).trans ?_
  rw [memRead_inBuf (by omega)]
  refine (if_neg (by omega)).trans ?_
  rw [memRead_inBuf (by omega)]
  refine (if_neg (not_not.2 hc)).trans ?_
  rw [memWrite_cpay (by simp only [Memory.length_readBytes, State.cpayCap_eq]; omega)]
  rfl

/-- No failed command leaves ERR = 0. -/
theorem ErrorKind.code_ne_zero (e : ErrorKind) : e.code ≠ 0 := by
  cases e <;> decide

theorem fail_err_ne_zero (s : State) (e : ErrorKind) : (s.fail e).err ≠ 0 := e.code_ne_zero

/-- What a successful DECODE found and took, in terms of the length L it leaves in CLEN. -/
theorem execDecode_success {s t : State} (h : execDecode s = .next t) (h0 : t.err = 0) :
    let l := t.clen.toNat
    t.clen = be32 (s.inBuf.readBytes 0 4) ∧ l + 12 ≤ s.inLen.toNat ∧ l + 12 ≤ s.cfg.inCap ∧
    tagOk (s.inBuf.readBytes 4 4) = true ∧
    crc32 (s.inBuf.readBytes 4 4 ++ s.inBuf.readBytes 8 l) = be32 (s.inBuf.readBytes (8 + l) 4) ∧
    t = { s with
      cpay := s.cpay.writeBytes 0 (s.inBuf.readBytes 8 l)
      tag := be32 (s.inBuf.readBytes 4 4)
      tagValid := true
      clen := be32 (s.inBuf.readBytes 0 4)
      ccrc := be32 (s.inBuf.readBytes (8 + l) 4)
      chunkValid := true
      err := 0 } := by
  rcases execDecode_next h with ⟨_, rfl⟩ | ⟨_, _, rfl⟩ | ⟨_, _, _, rfl⟩ | ⟨_, _, _, rfl⟩ | ⟨hl, ht, hc, hcap, ht'⟩
  case inr.inr.inr.inr =>
    have hclen : t.clen = be32 (s.inBuf.readBytes 0 4) := by rw [ht']
    simp only [hclen]
    exact ⟨trivial, hl, hcap, ht, hc, ht'⟩
  all_goals exact absurd h0 (fail_err_ne_zero s _)

/-! ### What each transaction does -/

theorem hostReadByte_cases (s : State) (b : Buf) (addr : Word) :
    (s.cap b ≤ addr.toNat ∧ s.hostReadByte b addr = s.refuseRead) ∨
    (addr.toNat < s.cap b ∧ s.hostReadByte b addr = s.answer (((s.buf b).read addr.toNat).setWidth 32)) := by
  unfold hostReadByte
  split
  · exact .inl ⟨‹_›, rfl⟩
  · exact .inr ⟨by omega, rfl⟩

theorem execRegRd_cases (a : Word) (s : State) :
    (regAt a = none ∧ execRegRd a s = .next s.refuseRead) ∨
    (∃ r, a = Reg.offset r ∧ execRegRd a s = .next (s.answer (s.readReg r))) := by
  cases h : regAt a with
  | none => exact .inl ⟨rfl, by simp only [execRegRd, h]⟩
  | some r => exact .inr ⟨r, regAt_eq_some.1 h, by simp only [execRegRd, h]⟩

/-- What a REG_WR can be (R222): a refusal, a command, or the write of one host-writable register. -/
theorem execRegWr_cases (a v : Word) (s : State) :
    execRegWr a v s = .next s.refuseWrite ∨
    (a = Reg.offset .cmd ∧ execRegWr a v s = execCommandWord v s) ∨
    (a = Reg.offset .status ∧ execRegWr a v s = .next (if v.getLsbD 16 then { s with busErr := false } else s)) ∨
    (a = Reg.offset .arg ∧ execRegWr a v s = .next { s with arg := v }) ∨
    (a = Reg.offset .inLen ∧ v.toNat ≤ s.cfg.inCap ∧ execRegWr a v s = .next { s with inLen := v }) ∨
    (a = Reg.offset .crcAcc ∧ execRegWr a v s = .next { s with crcAcc := v }) := by
  cases h : regAt a with
  | none => exact .inl (by simp only [execRegWr, h])
  | some r =>
    have ha := regAt_eq_some.1 h
    cases r <;> subst ha
    case inLen =>
      by_cases hv : s.cfg.inCap < v.toNat
      · exact .inl (by simp [execRegWr, hv])
      · exact .inr (.inr (.inr (.inr (.inl ⟨rfl, by omega, by simp [execRegWr, hv]⟩))))
    all_goals simp [execRegWr, h]

theorem execInWr_cases (a v : Word) (s : State) :
    (s.cfg.inCap ≤ a.toNat ∧ execInWr a v s = .next s.refuseWrite) ∨
    (a.toNat < s.cfg.inCap ∧
      execInWr a v s = .next { s with inBuf := s.inBuf.write a.toNat (v.extractLsb' 0 8) }) := by
  unfold execInWr
  by_cases h : s.cfg.inCap ≤ a.toNat
  · rw [if_pos h]
    exact .inl ⟨h, rfl⟩
  · rw [if_neg h]
    exact .inr ⟨Nat.lt_of_not_le h, rfl⟩

end Sys2Proof.Machine
end

