-- ==== Sys2Proof/Laws/PerInstr.lean ====
section
/-!
SUPPORT. Statements made of every instruction, one lemma per constructor of Instr.
-/

namespace Sys2Proof.Laws.RoundTrip

/-- The decoder gives back an instruction from its encoding. -/
def Statement (i : Instr) : Prop := decodeEncoded (encode i) = .ok i

theorem nop : Statement .nop := rfl
theorem tagFromBytes : Statement .tagFromBytes := rfl
theorem tagFromText : Statement .tagFromText := rfl
theorem chunkNew : Statement .chunkNew := rfl
theorem decode : Statement .decode := rfl
theorem serialize : Statement .serialize := rfl
theorem utf8Check : Statement .utf8Check := rfl
theorem crcInit : Statement .crcInit := rfl
theorem crcFeed : Statement .crcFeed := rfl
theorem regRd (addr : Word) : Statement (.regRd addr) := rfl
theorem regWr (addr wdata : Word) : Statement (.regWr addr wdata) := rfl
theorem inRd (addr : Word) : Statement (.inRd addr) := rfl
theorem inWr (addr wdata : Word) : Statement (.inWr addr wdata) := rfl
theorem cpayRd (addr : Word) : Statement (.cpayRd addr) := rfl
theorem cpayWr (addr wdata : Word) : Statement (.cpayWr addr wdata) := rfl
theorem outRd (addr : Word) : Statement (.outRd addr) := rfl
theorem outWr (addr wdata : Word) : Statement (.outWr addr wdata) := rfl

end Sys2Proof.Laws.RoundTrip
end

