-- ==== Sys2Proof/Tests/Slice0.lean ====
section
/-!
SUPPORT. The model's own tests, each about one step on a small state, with expected values from spec/95_test_vectors.md; the
WellFormed smoke tests; and for every statement with hypotheses a witness that meets them.
-/

namespace Sys2Proof.Tests

open Sys2Proof.Machine

/-! ### Helpers -/

/-- The state after an instruction (the state before it, if it does not complete). -/
def after (i : Instr) (s : State) : State :=
  match exec i s with
  | .next t => t
  | .fault _ => s
  | .refused _ => s

/-- The instruction answers a next state. -/
def completes (i : Instr) (s : State) : Bool :=
  match exec i s with
  | .next _ => true
  | .fault _ => false
  | .refused _ => false

theorem exec_after {i : Instr} {s : State} (h : completes i s = true) : exec i s = .next (after i s) := by
  unfold completes at h
  unfold after
  split at h
  · assumption
  · cases h
  · cases h

/-- The state after one step (the state before it, if the machine stops). -/
def stepped (s : State) : State :=
  match step s with
  | .next t => t
  | .fault _ => s
  | .refused _ => s

/-- The value the last read returned. -/
def lastRead (s : State) : Option Word := s.reads.getLast?

def bytes (bs : List Nat) : List Byte := bs.map (BitVec.ofNat 8)

/-- A small instance after reset, IN_CAP = 32. -/
def base : State := State.powerOn { inCap := 32 } { inBuf := [], cpay := [], out := [] }

/-- `s` with the operand `bs` in IN and its length in IN_LEN. -/
def withIn (s : State) (bs : List Nat) : State :=
  { s with inBuf := Memory.ofDraw s.cfg.inCap (bytes bs), inLen := BitVec.ofNat 32 bs.length }

theorem withIn_crcAcc (s : State) (bs : List Nat) : (withIn s bs).crcAcc = s.crcAcc := rfl

/-- `base` with a valid tag. -/
def tagged (tag : Word) : State := { base with tag := tag, tagValid := true }

/-- `base` with a live chunk of tag "RuSt" and the given payload and checksum. -/
def chunk (p : List Nat) (c : Word) : State :=
  { tagged 0x52755374#32 with
    chunkValid := true, clen := BitVec.ofNat 32 p.length, ccrc := c, cpay := Memory.ofDraw 32 (bytes p) }

/-- The live chunk "tEXt", "hi" of vectors 2.6 and 2.7. -/
def live : State :=
  { base with
    tag := 0x74455874#32, tagValid := true, chunkValid := true, clen := 2, ccrc := 0x7569E6DF#32
    cpay := [(0, 0x68#8), (1, 0x69#8)] }

/-- The IEND chunk of vector 2.4 in IN. -/
def iend : State := withIn base [0x00, 0x00, 0x00, 0x00, 0x49, 0x45, 0x4E, 0x44, 0xAE, 0x42, 0x60, 0x82]

/-- The 13-byte chunk of vector 1.7 in IN: tag "RuSt", payload [00]. -/
def rust : State := withIn base [0x00, 0x00, 0x00, 0x01, 0x52, 0x75, 0x53, 0x74, 0x00, 0xFD, 0xB9, 0x17, 0x03]

/-! ### Decoding: the word of every row, written out from R92 and R98 -/

theorem test_decode_command_words :
    decodeTableWord 32 0x00000000 = some .nop ∧ decodeTableWord 32 0x00000001 = some .tagFromBytes ∧
    decodeTableWord 32 0x00000002 = some .tagFromText ∧ decodeTableWord 32 0x00000003 = some .chunkNew ∧
    decodeTableWord 32 0x00000004 = some .decode ∧ decodeTableWord 32 0x00000005 = some .serialize ∧
    decodeTableWord 32 0x00000006 = some .utf8Check ∧ decodeTableWord 32 0x00000007 = some .crcInit ∧
    decodeTableWord 32 0x00000008 = some .crcFeed := by decide

theorem test_decode_bus_kinds :
    decodeTableWord 8 0b000 = some (.regRd 0) ∧ decodeTableWord 8 0b001 = some (.regWr 0 0) ∧
    decodeTableWord 8 0b010 = some (.inRd 0) ∧ decodeTableWord 8 0b011 = some (.inWr 0 0) ∧
    decodeTableWord 8 0b100 = some (.cpayRd 0) ∧ decodeTableWord 8 0b101 = some (.cpayWr 0 0) ∧
    decodeTableWord 8 0b110 = some (.outRd 0) ∧ decodeTableWord 8 0b111 = some (.outWr 0 0) := by decide

/-- Records of programs 3.1, 3.2 and 3.4, with their addresses and data. -/
theorem test_decode_records :
    decodeRecord { kind := 0b001#3, addr := 0x00000008#32, wdata := 0x49454E44#32 } = .regWr 0x08#32 0x49454E44#32 ∧
    decodeRecord { kind := 0b000#3, addr := 0x0000001C#32, wdata := 0 } = .regRd 0x1C#32 ∧
    decodeRecord { kind := 0b011#3, addr := 0x0000000B#32, wdata := 0x00000083#32 } = .inWr 11#32 0x83#32 ∧
    decodeRecord { kind := 0b100#3, addr := 0x00000029#32, wdata := 0 } = .cpayRd 41#32 ∧
    decodeRecord { kind := 0b110#3, addr := 0x0000000B#32, wdata := 0 } = .outRd 11#32 := by decide

/-- Section 2.9: none of these words is a command; the reserved bits are looked at first. -/
theorem test_decode_illegal_words :
    decodeCommand 0x00000009#32 = .error .unassignedOpcode ∧ decodeCommand 0x000000FF#32 = .error .unassignedOpcode ∧
    decodeCommand 0x00000100#32 = .error .reservedBits ∧ decodeCommand 0x00000104#32 = .error .reservedBits ∧
    decodeCommand 0x80000000#32 = .error .reservedBits ∧ decodeCommand 0xFFFFFFFF#32 = .error .reservedBits := by
  refine ⟨?_, ?_, ?_, ?_, ?_, ?_⟩ <;> rfl

/-! ### WellFormed: an ill-formed term for each check, refused -/

theorem test_config_too_small : ¬ ({ inCap := 11 } : Config).wellFormed := by decide
theorem test_config_too_large : ¬ ({ inCap := 2 ^ 32 - 12 } : Config).wellFormed := by decide
theorem test_config_bounds : ({ inCap := 12 } : Config).wellFormed ∧ ({ inCap := 2 ^ 32 - 13 } : Config).wellFormed ∧
    Config.reference.wellFormed := by decide

theorem test_line_offset_too_large :
    (Line.rd (.offset (2 ^ 32))).wellFormed = false ∧ (Line.wr (.offset (2 ^ 32)) 0).wellFormed = false := by decide
theorem test_line_value_too_large : (Line.wr (.name .arg) (2 ^ 32)).wellFormed = false := by decide
theorem test_line_address_too_large :
    (Line.rb .inBuf (2 ^ 32)).wellFormed = false ∧ (Line.wb .out (2 ^ 32) 0).wellFormed = false := by decide
theorem test_line_byte_too_large : (Line.wb .inBuf 0 256).wellFormed = false := by decide
theorem test_line_bounds : (Line.wb .inBuf (2 ^ 32 - 1) 255).wellFormed = true ∧
    (Line.wr (.offset 0x06) (2 ^ 32 - 1)).wellFormed = true := by decide
theorem test_load_byte_too_large : (Pseudo.load [0, 256]).wellFormed = false := by decide
theorem test_load_text_not_ascii : (Pseudo.loadText "é").wellFormed = false := by decide
theorem test_tag_text_length : (Pseudo.tag "RuS").wellFormed = false ∧ (Pseudo.tag "RuStx").wellFormed = false := by
  decide
theorem test_tag_text_not_ascii : (Pseudo.tag "RuSé").wellFormed = false := by decide
theorem test_pseudo_line_checked : (Pseudo.line (.wb .inBuf 0 256)).wellFormed = false := by decide

/-! ### Host programs (R101) -/

/-- `cmd DECODE` = `wr CMD, 0x00000004`; `load [ ]` = `wr IN_LEN, 0`. -/
theorem test_pseudo_expansions :
    (Pseudo.cmd .decode).expand = [.wr (.name .cmd) 0x00000004] ∧ (Pseudo.load []).expand = [.wr (.name .inLen) 0] ∧
    (Pseudo.loadText "hi").expand = [.wb .inBuf 0 0x68, .wb .inBuf 1 0x69, .wr (.name .inLen) 2] ∧
    (Pseudo.tag "RuSt").expand = [.wr (.name .arg) 0x52755374, .wr (.name .cmd) 0x00000001] ∧
    Pseudo.clrbus.expand = [.wr (.name .status) 0x00010000] := by decide

/-- The records of lines 1, 6 and 8 of program 3.1 and line 10 of program 3.4. -/
theorem test_program_records :
    Program.transactions [.line (.wr (.name .arg) 0x49454E44), .line (.rd (.name .status)), .line (.rb .out 0),
      .line (.wb .cpay 0 0)] =
    [{ kind := 0b001#3, addr := 0x00000008#32, wdata := 0x49454E44#32 }, { kind := 0b000#3, addr := 0x00000004#32, wdata := 0 },
     { kind := 0b110#3, addr := 0, wdata := 0 }, { kind := 0b101#3, addr := 0, wdata := 0 }] := by decide

/-! ### Reset and the step -/

/-- Section 2.11: what the registers read just after reset. -/
theorem test_reset_registers :
    State.reset.readReg .id = 0x504E4701#32 ∧ State.reset.readReg .cmd = 0 ∧ State.reset.readReg .status = 0 ∧
    State.reset.readReg .crcAcc = 0xFFFFFFFF#32 ∧ State.reset.readReg .crcOut = 0 ∧ State.reset.readReg .props = 0 ∧
    State.reset.cap .inBuf = 65548 ∧ State.reset.cap .cpay = 65548 ∧ State.reset.cap .out = 65560 := by decide

/-- A placed word runs as the first instruction after reset: SERIALIZE with no chunk reports code 7, CRC_FEED code 0. -/
theorem test_placed_words_run :
    (stepped (State.reset.withFetchWord 32 0x00000005)).err = 7 ∧
    (stepped (State.reset.withFetchWord 32 0x00000008)).err = 0 ∧
    (stepped (State.reset.withFetchWord 8 0b101)).busErr = true ∧
    (stepped (State.reset.withFetchWord 8 0b000)).reads = [0] := by decide

/-- A reset event clears the registers and leaves its draw in the buffers. -/
theorem test_reset_event :
    (stepped { live with err := 5, host := [.reset { inBuf := bytes [1, 2], cpay := bytes [3], out := [] }] }).status = 0 ∧
    (stepped { live with host := [.reset { inBuf := bytes [1, 2], cpay := bytes [3], out := [] }] }).inBuf.read 1 = 2 ∧
    (stepped { live with host := [.reset { inBuf := bytes [1, 2], cpay := bytes [3], out := [] }] }).cpay =
      [(0, 3#8)] := by decide

/-- An idle block does nothing (R283). -/
theorem test_idle : stepped live = live := by decide

/-! ### Type tags: sections 1.3, 1.4, 2.2, 2.3 and 2.5 -/

theorem test_tag_from_bytes_ok :
    (after .tagFromBytes { base with arg := 0x5275537A#32, err := 3 }).tag = 0x5275537A#32 ∧
    (after .tagFromBytes { base with arg := 0x5275537A#32, err := 3 }).status = 0x00000100#32 ∧
    (after .tagFromBytes { live with arg := 0x52755374#32 }).status = 0x00000100#32 := by decide

theorem test_tag_from_bytes_bad :
    (after .tagFromBytes { base with arg := 0x5275535B#32 }).status = 0x00000001#32 ∧
    (after .tagFromBytes { base with arg := 0x527553C1#32 }).tag = 0 ∧
    (after .tagFromBytes { live with arg := 0x52753174#32 }).status = 0x00000301#32 := by decide

theorem test_tag_from_text_ok :
    (after .tagFromText (withIn base [0x52, 0x75, 0x53, 0x74])).tag = 0x52755374#32 ∧
    (after .tagFromText (withIn base [0x52, 0x75, 0x53, 0x74])).status = 0x00000100#32 := by decide

theorem test_tag_from_text_bad :
    (after .tagFromText (withIn base [0x31, 0x32])).err = 2 ∧
    (after .tagFromText (withIn base [0x52, 0x75, 0x53, 0x74, 0x78])).err = 2 ∧
    (after .tagFromText (withIn base [0xC3, 0xA9, 0xC3, 0xA9])).err = 1 := by decide

theorem test_props :
    (tagged 0x52755374#32).props = 0x0000001D#32 ∧ (tagged 0x52755354#32).props = 0x00000015#32 ∧
    (tagged 0x61624344#32).props = 0x00000014#32 ∧ (tagged 0x61426344#32).props = 0x00000002#32 ∧
    (tagged 0x41626364#32).props = 0x00000009#32 ∧ (tagged 0x41424344#32).props = 0x00000017#32 ∧
    ({ tagged 0x52755374#32 with tagValid := false } : State).props = 0 := by decide

/-! ### CRC-32: sections 2.1 and 2.10 -/

theorem test_crc_values_and_feed :
    crc32 (bytes [0x31, 0x32, 0x33, 0x34, 0x35, 0x36, 0x37, 0x38, 0x39]) = 0xCBF43926#32 ∧
    crc32 [] = 0 ∧ crc32 (bytes [0x61]) = 0xE8B7BE43#32 ∧ crc32 (bytes [0xFF]) = 0xFF000000#32 ∧
    crc32 (bytes [0x52, 0x75, 0x53, 0x74]) = 0xD484093C#32 ∧ crcByte 0 0x80 = 0xEDB88320#32 ∧
    (after .crcFeed (withIn base [0x31, 0x32, 0x33, 0x34])).crcAcc = 0x641C1F5C#32 ∧
    (after .crcFeed (withIn base [0x31, 0x32, 0x33, 0x34])).crcOut = 0x9BE3E0A3#32 ∧
    (after .crcFeed (withIn { base with crcAcc := 0x641C1F5C#32 } [0x35, 0x36, 0x37, 0x38, 0x39])).crcAcc =
      0x340BC6D9#32 := by decide +kernel

theorem test_crc_init :
    (after .crcInit { base with crcAcc := 0x12345678#32 }).crcAcc = 0xFFFFFFFF#32 ∧
    (after .crcInit { base with crcAcc := 0x12345678#32 }).crcOut = 0 := by decide

theorem test_crc_feed_host_written :
    (after .crcFeed (withIn { base with crcAcc := 0 } [0x01])).crcAcc = 0x77073096#32 ∧
    (after .crcFeed { base with crcAcc := 0xABCDEF01#32 }).crcAcc = 0xABCDEF01#32 := by decide

/-! ### Chunks: sections 2.4, 2.6, 2.7 and 2.8 -/

theorem test_nop : (after .nop { live with err := 3, busErr := true }).status = 0x00010300#32 := by decide

theorem test_chunk_new :
    (after .chunkNew (withIn (tagged 0x74455874#32) [0x68, 0x69])).ccrc = 0x7569E6DF#32 ∧
    (after .chunkNew (withIn (tagged 0x74455874#32) [0x68, 0x69])).status = 0x00000300#32 ∧
    (after .chunkNew (withIn (tagged 0x74455874#32) [0x68, 0x69])).cpay = [(0, 0x68#8), (1, 0x69#8)] ∧
    (after .chunkNew (withIn base [0x00])).status = 0x00000006#32 ∧
    (after .chunkNew (tagged 0x49454E44#32)).ccrc = 0xAE426082#32 := by decide +kernel

theorem test_decode_iend :
    (after .decode iend).status = 0x00000300#32 ∧ (after .decode iend).tag = 0x49454E44#32 ∧
    (after .decode iend).clen = 0 ∧ (after .decode iend).ccrc = 0xAE426082#32 ∧
    (after .decode (withIn base [0x00, 0x00, 0x00, 0x00, 0x49, 0x45, 0x4E, 0x31, 0xAE, 0x42, 0x60])).err = 3 ∧
    (after .decode (withIn base [0xFF, 0xFF, 0xFF, 0xFF, 0x49, 0x45, 0x4E, 0x00, 0xAE, 0x42, 0x60, 0x82])).err = 1 ∧
    (after .decode (withIn base [0xFF, 0xFF, 0xFF, 0xFF, 0x49, 0x45, 0x4E, 0x44, 0xAE, 0x42, 0x60, 0x82])).err = 3 ∧
    (after .decode (withIn base [0x00, 0x00, 0x00, 0x01, 0x49, 0x45, 0x4E, 0x44, 0xAE, 0x42, 0x60, 0x82])).err = 3 ∧
    (after .decode (withIn base [0x00, 0x00, 0x00, 0x00, 0x49, 0x45, 0x4E, 0x44, 0x82, 0x60, 0x42, 0xAE])).err = 4 := by
  decide +kernel

theorem test_serialize :
    (after .serialize live).out.readBytes 0 14 =
      bytes [0x00, 0x00, 0x00, 0x02, 0x74, 0x45, 0x58, 0x74, 0x68, 0x69, 0x75, 0x69, 0xE6, 0xDF] ∧
    (after .serialize live).outLen = 14 ∧ (after .serialize live).status = 0x00000300#32 := by decide

theorem test_serialize_edges :
    (after .serialize base).status = 0x00000007#32 ∧
    (after .serialize { chunk [] 0xD484093C#32 with out := [(11, 1#8), (12, 0xE6#8)] }).out.read 11 = 0x3C ∧
    (after .serialize { chunk [] 0xD484093C#32 with out := [(11, 1#8), (12, 0xE6#8)] }).out.read 12 = 0xE6 := by decide

theorem test_utf8_check :
    (after .utf8Check base).status = 0x00000007#32 ∧
    (after .utf8Check (chunk [0xC3, 0x28] 0x9E942B57#32)).status = 0x00000305#32 ∧
    (after .utf8Check (chunk [0xF0, 0x9F, 0x98, 0x80] 0)).status = 0x00000300#32 := by decide

theorem test_utf8_table :
    ([[], [0x61], [0x7F], [0xC3, 0x80], [0xDF, 0xBF], [0xE0, 0xA0, 0x80], [0xE2, 0x82, 0xAC], [0xED, 0x9F, 0xBF],
      [0xEF, 0xBF, 0xBF], [0xF0, 0x90, 0x80, 0x80], [0xF4, 0x8F, 0xBF, 0xBF]].all fun p => utf8WellFormed (bytes p)) ∧
    ([[0xC3, 0x28], [0xC0, 0x80], [0xC1, 0xBF], [0xE0, 0x80, 0x80], [0xF0, 0x80, 0x80, 0x80], [0xED, 0xA0, 0x80],
      [0xF4, 0x90, 0x80, 0x80], [0xF5, 0x80, 0x80, 0x80], [0x80], [0xBF], [0xFE], [0xFF], [0xC2],
      [0xE2, 0x82]].all fun p => !utf8WellFormed (bytes p)) := by decide

/-! ### The host port: section 2.11, in the reference configuration -/

theorem test_reg_rd :
    lastRead (after (.regRd 0x2C#32) State.reset) = some 0x504E4701#32 ∧
    lastRead (after (.regRd 0x24#32) State.reset) = some 0xFFFFFFFF#32 ∧
    lastRead (after (.regRd 0x04#32) live) = some 0x00000300#32 ∧
    (after (.regRd 0x00#32) State.reset).busErr = false := by decide

theorem test_reg_rd_refused :
    ([0x06#32, 0x30#32, 0xFC#32, 0x100#32].all fun a =>
      lastRead (after (.regRd a) State.reset) == some 0 && (after (.regRd a) State.reset).busErr) = true := by decide

theorem test_reg_wr :
    (after (.regWr 0x0C#32 65548#32) State.reset).inLen = 65548 ∧
    (after (.regWr 0x0C#32 65549#32) State.reset).inLen = 0 ∧
    (after (.regWr 0x0C#32 65549#32) State.reset).busErr = true ∧
    (after (.regWr 0x04#32 0xFFFEFFFF#32) { live with busErr := true }).status = 0x00010300#32 ∧
    (after (.regWr 0x04#32 0x00010000#32) { live with busErr := true }).status = 0x00000300#32 := by decide

theorem test_reg_wr_command :
    (after (.regWr 0x00#32 0x00000104#32) live).status = 0x00000308#32 ∧
    (after (.regWr 0x00#32 0x00000005#32) live).outLen = 14 ∧
    (after (.regWr 0x10#32 0) live).tag = 0x74455874#32 ∧ (after (.regWr 0x10#32 0) live).busErr = true := by decide

theorem test_in_rd :
    lastRead (after (.inRd 4#32) iend) = some 0x00000049#32 ∧
    lastRead (after (.inRd 65548#32) State.reset) = some 0 ∧
    (after (.inRd 65548#32) State.reset).busErr = true := by decide

theorem test_in_wr :
    (after (.inWr 65547#32 0x41#32) State.reset).inBuf = [(65547, 0x41#8)] ∧
    (after (.inWr 65548#32 0x41#32) State.reset).inBuf = [] ∧
    (after (.inWr 65548#32 0x41#32) State.reset).busErr = true ∧
    (after (.inWr 0#32 0x00000141#32) State.reset).inBuf = [(0, 0x41#8)] := by decide

theorem test_cpay_rd :
    lastRead (after (.cpayRd 1#32) live) = some 0x00000069#32 ∧
    (after (.cpayRd 65547#32) State.reset).busErr = false ∧ (after (.cpayRd 65548#32) State.reset).busErr = true := by
  decide

theorem test_cpay_wr :
    (after (.cpayWr 0 0) live).cpay = live.cpay ∧ (after (.cpayWr 0 0) live).status = 0x00010300#32 := by decide

theorem test_out_rd :
    lastRead (after (.outRd 8#32) { base with out := [(8, 0xAE#8)] }) = some 0x000000AE#32 ∧
    (after (.outRd 65559#32) State.reset).busErr = false ∧ (after (.outRd 65560#32) State.reset).busErr = true := by
  decide

theorem test_out_wr :
    (after (.outWr 0 0) { base with out := [(0, 0xAE#8)] }).out = [(0, 0xAE#8)] ∧
    (after (.outWr 0 0) base).busErr = true := by decide

/-! ### Witnesses: for every statement with hypotheses, states and operands that meet them all -/

/-- What the witnesses below need of runs that compute a checksum, evaluated at one place. -/
theorem evaluated :
    (completes .decode iend = true ∧ (after .decode iend).err = 0 ∧ (after .decode iend).clen.toNat = 0 ∧
      (after .decode iend).tagValid ≠ iend.tagValid) ∧
    (completes .decode { iend with inLen := 15 } = true ∧ (after .decode { iend with inLen := 15 }).err = 0 ∧
      (after .decode { iend with inLen := 15 }).clen.toNat = 0) ∧
    (completes .decode rust = true ∧ (after .decode rust).err = 0 ∧ (after .decode rust).clen.toNat = 1) ∧
    live.ccrc = crc32 (tagBytes live.tag ++ live.payload) ∧
    (after .decode { rust with inLen := 12 }).err = 3 ∧ (after .decode { iend with inBuf := iend.inBuf.write 11 0x83 }).err = 4 ∧
    (completes .crcFeed (withIn base [0x31, 0x32]) = true ∧
      completes .crcFeed (withIn (after .crcFeed (withIn base [0x31, 0x32])) [0x33, 0x34]) = true ∧
      (withIn base [0x31, 0x32, 0x33, 0x34]).operand = (withIn base [0x31, 0x32]).operand ++
        (withIn (after .crcFeed (withIn base [0x31, 0x32])) [0x33, 0x34]).operand) ∧
    (completes .chunkNew (withIn (tagged 0x74455874#32) [0x68, 0x69]) = true ∧
      (after .chunkNew (withIn (tagged 0x74455874#32) [0x68, 0x69])).err = 0) ∧
    (withIn base [0x49, 0x45, 0x4E, 0x44]).operand = tagBytes (after .decode iend).tag ++ (after .decode iend).payload ∧
    (withIn base [0x74, 0x45, 0x58, 0x74, 0x68, 0x69]).operand =
      tagBytes (after .chunkNew (withIn (tagged 0x74455874#32) [0x68, 0x69])).tag ++
        (after .chunkNew (withIn (tagged 0x74455874#32) [0x68, 0x69])).payload ∧
    ([.nop, .utf8Check, .tagFromBytes, .tagFromText, .chunkNew, .decode, .serialize, .crcInit, .crcFeed].all
      fun i => completes i live) = true := by
  decide +kernel

/-- `live` meets the invariant. -/
theorem live_inv : live.Inv where
  cfg_ok := by decide
  err_le := by decide
  inLen_le := by decide
  outLen_ok := by decide
  tag_ok := by decide
  chunk_tag := by decide
  chunk_len := by decide
  chunk_crc := fun _ => evaluated.2.2.2.1
  bufs_ok := by intro b; cases b <;> decide

/-- A state with a tag, an operand and no chunk meets the invariant. -/
theorem operand_inv : (withIn (tagged 0x74455874#32) [0x68, 0x69]).Inv where
  cfg_ok := by decide
  err_le := by decide
  inLen_le := by decide
  outLen_ok := by decide
  tag_ok := by decide
  chunk_tag := by decide
  chunk_len := by decide
  chunk_crc := by decide
  bufs_ok := by intro b; cases b <;> decide

/-- `iend` meets the invariant. -/
theorem iend_inv : iend.Inv where
  cfg_ok := by decide
  err_le := by decide
  inLen_le := by decide
  outLen_ok := by decide
  tag_ok := by decide
  chunk_tag := by decide
  chunk_len := by decide
  chunk_crc := by decide
  bufs_ok := by intro b; cases b <;> decide

theorem exec_decode_iend : exec .decode iend = .next (after .decode iend) := exec_after evaluated.1.1

theorem witness_EncodedInstructionDecodesBack : (Instr.regWr 0xFFFFFFFF#32 0xFFFFFFFF#32).wellFormed = true := rfl

theorem witness_HostBusRecordKeepsItsFields :
    (({ kind := 0b111#3, addr := 0xFFFFFFFF#32, wdata := 1 } : HostBus).kind.getLsbD 0 = true) ∧
    (({ kind := 0b110#3, addr := 0xFFFFFFFF#32, wdata := 1 } : HostBus).kind.getLsbD 0 = false) := by decide

theorem witness_StepRunsTheDecodedTransaction :
    ({ live with host := [.bus { kind := 0b001#3, addr := 0, wdata := 5 }] } : State).host =
      .bus { kind := 0b001#3, addr := 0, wdata := 5 } :: [] := rfl

theorem witness_PlacedWordRunsItsInstruction :
    decodeTableWord 32 0x00000008 = some .crcFeed ∧ decodeTableWord 8 0b111 = some (.outWr 0 0) := by decide

theorem witness_IllegalCommandWordOnlySetsErr :
    ((0x00000100#32).extractLsb' 8 24 ≠ 0) ∧
    ((0x00000009#32).extractLsb' 8 24 = 0 ∧ 0x09 ≤ ((0x00000009#32).extractLsb' 0 8).toNat) ∧
    ((0x000000FF#32).extractLsb' 8 24 = 0 ∧ 0x09 ≤ ((0x000000FF#32).extractLsb' 0 8).toNat) := by decide

theorem witness_ResetWritesEveryRegister :
    ({ live with host := [.reset { inBuf := [], cpay := [], out := [] }] } : State).host =
      .reset { inBuf := [], cpay := [], out := [] } :: [] := rfl

theorem witness_ResetLeavesTheDrawInTheBuffers :
    ∃ (s : State) (d : ResetDraw), s.cfg.wellFormed ∧ s.host = .reset d :: [] ∧
      d.inBuf.length = s.cfg.inCap ∧ d.cpay.length = s.cfg.cpayCap ∧ d.out.length = s.cfg.outCap :=
  ⟨{ live with host := [.reset { inBuf := List.replicate 32 7, cpay := List.replicate 32 0, out := List.replicate 44 255 }] },
    { inBuf := List.replicate 32 7, cpay := List.replicate 32 0, out := List.replicate 44 255 }, by decide⟩

theorem witness_BigEndianConversionsAreInverse : (bytes [0x52, 0x75, 0x53, 0x74]).length = 4 := rfl

theorem witness_TagCheckHoldsOfFourLetters :
    isLetter 0x41 = true ∧ isLetter 0x5A = true ∧ isLetter 0x61 = true ∧ isLetter 0x7A = true := by decide

theorem witness_PropsHoldsTheFiveProperties :
    base.tagValid = false ∧ (tagged 0x52755374#32).tagValid = true := by decide

theorem witness_PropsBitsReadDistinctTagBytes :
    (tagged 0x52755374#32).tagValid = true ∧ (tagged 0x41424374#32).tagValid = true ∧
    (tagged 0x52755374#32).tag.extractLsb' (24 - 8 * 3) 8 = (tagged 0x41424374#32).tag.extractLsb' (24 - 8 * 3) 8 ∧
    (tagged 0x52755374#32).tag.extractLsb' (24 - 8 * 0) 8 = (tagged 0x52424344#32).tag.extractLsb' (24 - 8 * 0) 8 ∧
    tagOk (tagBytes (tagged 0x52755374#32).tag) = true := by decide

theorem witness_TagFromBytesChecksArg :
    tagOk (beBytes ({ base with arg := 0x415A617A#32 } : State).arg) = true ∧ tagOk (beBytes base.arg) = false := by decide

theorem witness_TagFromTextChecksLengthThenBytes :
    ∃ a b c : State, (4 ≤ a.cfg.inCap ∧ a.inLen ≠ 4) ∧
      (4 ≤ b.cfg.inCap ∧ b.inLen = 4 ∧ tagOk (b.inBuf.readBytes 0 4) = false) ∧
      (4 ≤ c.cfg.inCap ∧ c.inLen = 4 ∧ tagOk (c.inBuf.readBytes 0 4) = true) :=
  ⟨withIn base [0x52, 0x75, 0x53, 0x74, 0x78], withIn base [0x52, 0x75, 0x31, 0x74],
    withIn base [0x52, 0x75, 0x53, 0x74], by decide⟩

theorem witness_TagReadsBackExactly :
    (∃ s t : State, exec .tagFromBytes s = .next t ∧ t.err = 0) ∧
    (∃ s t : State, exec .tagFromText s = .next t ∧ t.err = 0) ∧
    (∃ (i : Instr) (s t : State), exec i s = .next t ∧ ¬ (t.err = 0 ∧
      (i.command = some .tagFromBytes ∨ i.command = some .tagFromText ∨ i.command = some .decode))) :=
  ⟨⟨{ base with arg := 0x52755374#32 }, _, exec_after (by decide), by decide⟩,
    ⟨withIn base [0x52, 0x75, 0x53, 0x74], _, exec_after (by decide), by decide⟩,
    ⟨.tagFromBytes, live, _, exec_after (by decide), by decide⟩⟩

/-- IN_LEN = IN_CAP, with a valid tag and without one. -/
theorem witness_ChunkNewBuildsTheChunk :
    ∃ a b : State, (a.inLen.toNat ≤ a.cfg.inCap ∧ a.cpay.wf ∧ a.tagValid = false) ∧
      (b.inLen.toNat ≤ b.cfg.inCap ∧ b.cpay.wf ∧ b.tagValid = true) :=
  ⟨{ base with inLen := 32 }, { live with inLen := 32 }, by decide⟩

/-- A state for each outcome of DECODE: 3 (n = 11), 1, 3 (short by one byte), 4 and 0 (n = 12). -/
theorem witness_DecodeChecksInOrderThenTakesTheChunk :
    (∀ s ∈ [{ iend with inLen := 11 }, { iend with inBuf := iend.inBuf.write 7 0x31 }, { rust with inLen := 12 },
      { iend with inBuf := iend.inBuf.write 11 0x83 }, iend], s.inLen.toNat ≤ s.cfg.inCap ∧ s.cpay.wf) ∧
    (after .decode { iend with inLen := 11 }).err = 3 ∧
    (after .decode { iend with inBuf := iend.inBuf.write 7 0x31 }).err = 1 ∧
    (after .decode { rust with inLen := 12 }).err = 3 ∧
    (after .decode { iend with inBuf := iend.inBuf.write 11 0x83 }).err = 4 ∧ (after .decode iend).err = 0 :=
  ⟨by decide, by decide, by decide, evaluated.2.2.2.2.1, evaluated.2.2.2.2.2.1, evaluated.1.2.1⟩

/-- A buffer with trailing bytes, the least and the greatest IN_LEN that still hold its chunk, and another buffer that agrees
with it on the consumed prefix. -/
theorem witness_DecodeIgnoresTrailingBytes :
    ∃ (s t : State) (lo hi : Word) (m : Memory), exec .decode s = .next t ∧ t.err = 0 ∧
      (12 + t.clen.toNat ≤ lo.toNat ∧ lo.toNat ≤ s.cfg.inCap ∧ lo ≠ s.inLen) ∧
      (12 + t.clen.toNat ≤ hi.toNat ∧ hi.toNat = s.cfg.inCap) ∧
      m ≠ s.inBuf ∧ ∀ a, a < 12 + t.clen.toNat → m.read a = s.inBuf.read a := by
  have hl := evaluated.2.1.2.2
  have hlo : (12#32).toNat = 12 := rfl
  have hhi : (32#32).toNat = 32 := rfl
  have hd : ∀ b : Fin 12, (iend.inBuf.write 12 1).read b.val = iend.inBuf.read b.val := by decide
  exact ⟨{ iend with inLen := 15 }, after .decode { iend with inLen := 15 }, 12#32, 32#32, iend.inBuf.write 12 1,
    exec_after evaluated.2.1.1, evaluated.2.1.2.1, ⟨by omega, by decide, by decide⟩, ⟨by omega, by decide⟩,
    by decide, fun a ha => hd ⟨a, by omega⟩⟩

/-- CLEN = CPAY_CAP, and a state with no live chunk. -/
theorem witness_SerializeWritesTheLayout :
    ∃ a b : State, (a.cfg.wellFormed ∧ a.out.wf ∧ a.chunkValid = false) ∧
      (b.cfg.wellFormed ∧ b.out.wf ∧ b.chunkValid = true ∧ b.clen.toNat ≤ b.cfg.cpayCap) :=
  ⟨base, { live with clen := 32 }, by decide⟩

theorem witness_Utf8CheckReportsThePayload :
    ∃ a b : State, a.chunkValid = false ∧ (b.chunkValid = true ∧ b.clen.toNat ≤ b.cfg.cpayCap) :=
  ⟨base, { live with clen := 32 }, by decide⟩

theorem witness_Utf8ScanHoldsOfSplitSequences :
    ∃ gs hs : List (List Byte), gs ≠ [] ∧
      (∀ g ∈ gs, ∃ row ∈ utf8Rows, matchesRow row g = true) ∧
      (∀ h ∈ hs, ∃ row ∈ utf8Rows, matchesRow row h = true) ∧ gs.flatten = hs.flatten :=
  ⟨[bytes [0xE2, 0x82, 0xAC], bytes [0x61]], [bytes [0xE2, 0x82, 0xAC], bytes [0x61]], by decide⟩

/-- A pair of bytes at a boundary for each clause. -/
theorem witness_Utf8RejectsIllFormedStarts :
    (0x80 ≤ (0xC1 : Byte).toNat ∧ (0xC1 : Byte).toNat ≤ 0xC1) ∧ 0xF5 ≤ (0xF5 : Byte).toNat ∧
    ((0xE0 : Byte).toNat = 0xE0 ∧ 0x80 ≤ (0x9F : Byte).toNat ∧ (0x9F : Byte).toNat ≤ 0x9F) ∧
    ((0xED : Byte).toNat = 0xED ∧ 0xA0 ≤ (0xA0 : Byte).toNat ∧ (0xA0 : Byte).toNat ≤ 0xBF) ∧
    ((0xF0 : Byte).toNat = 0xF0 ∧ 0x80 ≤ (0x8F : Byte).toNat ∧ (0x8F : Byte).toNat ≤ 0x8F) ∧
    ((0xF4 : Byte).toNat = 0xF4 ∧ 0x90 ≤ (0x90 : Byte).toNat) ∧
    0x80 ≤ (0xC2 : Byte).toNat ∧ 0xE0 ≤ (0xE0 : Byte).toNat ∧ 0xF0 ≤ (0xF0 : Byte).toNat ∧ (0x7F : Byte).toNat ≤ 0x7F := by decide

theorem witness_DecodeOfSerializeGivesTheChunk :
    live.Inv ∧ live.chunkValid = true ∧ 12 + live.clen.toNat ≤ live.cfg.inCap := ⟨live_inv, by decide⟩

theorem witness_SerializeOfDecodeGivesTheConsumedPrefix :
    iend.Inv ∧ exec .decode iend = .next (after .decode iend) ∧ (after .decode iend).err = 0 :=
  ⟨iend_inv, exec_decode_iend, evaluated.1.2.1⟩

theorem witness_BuiltChunkSurvivesTheRoundTrip :
    ∃ s : State, s.Inv ∧ s.tagValid = true ∧ s.inLen.toNat ≤ s.cfg.inCap - 12 :=
  ⟨withIn (tagged 0x74455874#32) [0x68, 0x69], operand_inv, by decide⟩

theorem witness_CrcIsLinear : (bytes [0x31, 0x32]).length = (bytes [0xFF, 0x00]).length := rfl

theorem witness_CrcDetectsEverySingleByteError : (0x54 : Byte) ≠ 0x55 := by decide

/-- The payload byte of the 13-byte chunk, and the first and last tag bytes of the 12-byte one. -/
theorem witness_CorruptedChunkNeverDecodes :
    (∃ (s t : State) (b : Byte), s.inBuf.wf ∧ exec .decode s = .next t ∧ t.err = 0 ∧ 8 < 8 + t.clen.toNat ∧
      b ≠ s.inBuf.read 8) ∧
    (∃ (s t : State) (b c : Byte), s.inBuf.wf ∧ exec .decode s = .next t ∧ t.err = 0 ∧ 7 < 8 + t.clen.toNat ∧
      b ≠ s.inBuf.read 4 ∧ isLetter b = true ∧ c ≠ s.inBuf.read 7 ∧ isLetter c = false) := by
  refine ⟨⟨rust, after .decode rust, 1, by decide, exec_after evaluated.2.2.1.1, evaluated.2.2.1.2.1, ?_, by decide⟩,
    ⟨iend, after .decode iend, 0x69, 0x31, by decide, exec_decode_iend, evaluated.1.2.1, ?_, by decide⟩⟩
  · rw [evaluated.2.2.1.2.2]
    decide
  · omega

/-- Feeding "12" and then "34", against "1234" at once. -/
theorem witness_CrcFeedAdvancesTheAccumulator :
    (base.inLen.toNat ≤ base.cfg.inCap ∧ base.inLen = 0) ∧
    ∃ s t u v w : State, exec .crcFeed s = .next t ∧ u.crcAcc = t.crcAcc ∧ exec .crcFeed u = .next v ∧
      w.crcAcc = s.crcAcc ∧ w.operand = s.operand ++ u.operand ∧ w.inLen.toNat ≤ w.cfg.inCap := by
  refine ⟨by decide, withIn base [0x31, 0x32], after .crcFeed (withIn base [0x31, 0x32]),
    withIn (after .crcFeed (withIn base [0x31, 0x32])) [0x33, 0x34], _, withIn base [0x31, 0x32, 0x33, 0x34],
    exec_after evaluated.2.2.2.2.2.2.1.1, withIn_crcAcc _ _,
    exec_after evaluated.2.2.2.2.2.2.1.2.1, rfl, evaluated.2.2.2.2.2.2.1.2.2, by decide⟩

theorem witness_StreamingCrcAgreesWithTheChunk :
    (∃ s t u : State, exec (Command.toInstr .decode) s = .next t ∧ t.err = 0 ∧ s.cpay.wf ∧
      u.operand = tagBytes t.tag ++ t.payload ∧ u.inLen.toNat ≤ u.cfg.inCap) ∧
    (∃ s t u : State, exec (Command.toInstr .chunkNew) s = .next t ∧ t.err = 0 ∧ s.cpay.wf ∧
      u.operand = tagBytes t.tag ++ t.payload ∧ u.inLen.toNat ≤ u.cfg.inCap) :=
  ⟨⟨iend, _, withIn base [0x49, 0x45, 0x4E, 0x44], exec_decode_iend, evaluated.1.2.1, by decide,
      evaluated.2.2.2.2.2.2.2.2.1, by decide⟩,
    ⟨withIn (tagged 0x74455874#32) [0x68, 0x69], _, withIn base [0x74, 0x45, 0x58, 0x74, 0x68, 0x69],
      exec_after evaluated.2.2.2.2.2.2.2.1.1, evaluated.2.2.2.2.2.2.2.1.2, by decide,
      evaluated.2.2.2.2.2.2.2.2.2.1, by decide⟩⟩

/-- The least and the last offset that names no register, in each of the three ways. -/
theorem witness_RegisterReadAnswersTheRegister :
    0x100 ≤ (0x100#32).toNat ∧ (0x01#32).extractLsb' 0 2 ≠ 0 ∧ (0x2F#32).extractLsb' 0 2 ≠ 0 ∧ 0x30 ≤ (0x30#32).toNat ∧
    0x100 ≤ (0xFFFFFFFC#32).toNat := by decide

theorem witness_RegisterWriteFollowsTheMap :
    decodeCommand 0x00000008#32 = .ok .crcFeed ∧ decodeCommand 0x00000009#32 = .error .unassignedOpcode ∧
    (0x00010000#32).getLsbD 16 = true ∧ (0xFFFEFFFF#32).getLsbD 16 = false ∧
    base.cfg.inCap < (33#32).toNat ∧ (32#32).toNat ≤ base.cfg.inCap := by
  refine ⟨rfl, rfl, ?_⟩
  decide

theorem witness_BufferReadAnswersTheByte :
    ((31#32).toNat < base.cfg.inCap ∧ base.cfg.inCap ≤ (32#32).toNat) ∧
    ((31#32).toNat < base.cfg.cpayCap ∧ base.cfg.cpayCap ≤ (32#32).toNat) ∧
    ((43#32).toNat < base.cfg.outCap ∧ base.cfg.outCap ≤ (44#32).toNat) := by decide

theorem witness_InputWriteStoresOneByte :
    base.inBuf.wf ∧ (31#32).toNat < base.cfg.inCap ∧ base.cfg.inCap ≤ (32#32).toNat := by decide

/-- A refused and an accepted transaction, and one that clears BUSERR. -/
theorem witness_BuserrRisesExactlyOnRefusal :
    (∃ t, exec (.regRd 0x30#32) live = .next t ∧ busRefused live.cfg (.regRd 0x30#32) = true) ∧
    (∃ t, exec (.regWr 0x04#32 0x00010000#32) { live with busErr := true } = .next t ∧ t.busErr = false) ∧
    (∃ t, exec .nop { live with busErr := true } = .next t ∧ t.busErr = true) :=
  ⟨⟨_, exec_after (by decide), by decide⟩, ⟨_, exec_after (by decide), by decide⟩, ⟨_, exec_after (by decide), by decide⟩⟩

theorem witness_RefusedTransactionHasNoOtherEffect :
    ([.regRd 0x06#32, .regWr 0x30#32 0, .regWr 0x0C#32 33#32, .regWr 0x2C#32 0, .inRd 32#32, .inWr 32#32 0, .cpayRd 32#32,
      .cpayWr 0 0, .outRd 44#32, .outWr 0 0].all (busRefused base.cfg)) = true := by decide

theorem witness_ReadsAndPlainWritesAreIdempotent :
    (∃ t, (Instr.regRd 0x04#32).isRead = true ∧ busRefused live.cfg (.regRd 0x04#32) = false ∧
      exec (.regRd 0x04#32) live = .next t) ∧
    (∃ t, exec (.regWr 0x0C#32 33#32) live = .next t ∧ t.inLen = live.inLen) ∧
    (∃ t, live.inBuf.wf ∧ exec (.inWr 31#32 0x141#32) live = .next t) :=
  ⟨⟨_, by decide, by decide, exec_after (by decide)⟩, ⟨_, exec_after (by decide), by decide⟩,
    ⟨_, by decide, exec_after (by decide)⟩⟩

theorem witness_ErrIsWrittenByCommandsOnly :
    (∃ t, exec (.regRd 0x30#32) live = .next t ∧ (Instr.regRd 0x30#32).runsCommandWord = false) ∧
    (∃ t, exec (.regWr 0x00#32 0xFFFFFFFF#32) live = .next t ∧ (Instr.regWr 0x00#32 0xFFFFFFFF#32).runsCommandWord = true ∧
      t.err = 8) :=
  ⟨⟨_, exec_after (by decide), by decide⟩, ⟨_, exec_after (by decide), by decide⟩⟩

theorem witness_TagValidRisesOnlyByTagCommands :
    ∃ t, exec .decode iend = .next t ∧ t.tagValid ≠ iend.tagValid ∧ t.err = 0 :=
  ⟨_, exec_decode_iend, evaluated.1.2.2.2, evaluated.1.2.1⟩

/-- A command of each clause: DECODE sets CHUNK_VALID, TAG_FROM_BYTES clears it, a failed one leaves it. -/
theorem witness_ChunkValidFollowsItsWriters :
    (∃ t, exec .decode iend = .next t ∧ t.err = 0) ∧
    (∃ t, exec .tagFromBytes { live with arg := 0x52755374#32 } = .next t ∧ t.err = 0 ∧ t.chunkValid ≠ live.chunkValid) ∧
    (∃ t, exec .tagFromBytes live = .next t ∧ t.err ≠ 0) :=
  ⟨⟨_, exec_decode_iend, evaluated.1.2.1⟩, ⟨_, exec_after (by decide), by decide⟩, ⟨_, exec_after (by decide), by decide⟩⟩

/-- Every command completes on a state with canonical buffers. -/
theorem witness_CommandsWriteOnlyTheirRow :
    live.cpay.wf ∧ live.out.wf ∧
    ([.nop, .utf8Check, .tagFromBytes, .tagFromText, .chunkNew, .decode, .serialize, .crcInit, .crcFeed].all
      fun i => completes i live) = true :=
  ⟨by decide, by decide, evaluated.2.2.2.2.2.2.2.2.2.2⟩

theorem witness_FailedCommandWritesOnlyErr :
    (Instr.serialize).runsCommandWord = true ∧ ∃ t, exec .serialize base = .next t ∧ t.err ≠ 0 :=
  ⟨by decide, _, exec_after (by decide), by decide⟩

theorem witness_EachCommandReportsItsOwnCodes :
    (∃ t, exec (Command.toInstr .utf8Check) (chunk [0xFF] 0) = .next t ∧ t.err = 5) ∧
    (∃ t, decodeCommand 0x00000104#32 = .error .reservedBits ∧ exec (.regWr 0x00#32 0x00000104#32) live = .next t) :=
  ⟨⟨_, exec_after (by decide), by decide⟩, ⟨_, rfl, exec_after (by decide)⟩⟩

theorem witness_RepeatedFailureReportsTheSameCode :
    (Instr.decode).runsCommandWord = true ∧ ∃ t, exec .decode base = .next t ∧ t.err ≠ 0 :=
  ⟨by decide, _, exec_after (by decide), by decide⟩

theorem witness_OnlyTheHostWritesTheInput :
    (∃ t, exec .decode iend = .next t ∧ (Instr.decode).runsCommandWord = true) ∧
    (∃ t, exec (.inWr 0 0x41#32) base = .next t ∧ t.inBuf ≠ base.inBuf) :=
  ⟨⟨_, exec_decode_iend, by decide⟩, ⟨_, exec_after (by decide), by decide⟩⟩

/-- A load that fills IN, and the empty one. -/
theorem witness_LoadPlacesTheOperand :
    base.cfg.wellFormed ∧ base.inBuf.wf ∧ (List.replicate 32 (0xFF : Byte)).length ≤ base.cfg.inCap ∧
    ([] : List Byte).length ≤ base.cfg.inCap := by decide

theorem witness_RunWithoutCommandsGoesWrongExactlyByRefusal :
    base.busErr = false ∧
    (∀ t ∈ [({ kind := 0b000#3, addr := 0x30#32, wdata := 0 } : HostBus)], (decodeRecord t).isCmdWrite = false ∧
      ¬ ∃ v : Word, decodeRecord t = .regWr 0x04#32 v ∧ v.getLsbD 16 = true) ∧
    ∃ r, runEvents ([({ kind := 0b000#3, addr := 0x30#32, wdata := 0 } : HostBus)].map HostEvent.bus) base = some r ∧
      wentWrong base [] r = true := by
  refine ⟨by decide, ?_, _, rfl, by decide⟩
  intro t ht
  rw [List.mem_singleton] at ht
  subst ht
  refine ⟨by decide, ?_⟩
  rintro ⟨v, hv, -⟩
  cases hv

theorem witness_InvariantHoldsAfterReset : ({ inCap := 12 } : Config).wellFormed := by decide

theorem witness_StepKeepsInvariant : live.Inv ∧ step live = .next live := ⟨live_inv, rfl⟩

/-- A step that runs a command from a state of the invariant. -/
theorem witness_NoStepStops :
    ∃ s t : State, s.Inv ∧ s.host ≠ [] ∧ step s = .next t := by
  refine ⟨{ live with host := [.bus { kind := 0b001#3, addr := 0, wdata := 5 }] }, after .serialize live, ?_, by decide, ?_⟩
  · exact ⟨live_inv.cfg_ok, live_inv.err_le, live_inv.inLen_le, live_inv.outLen_ok, live_inv.tag_ok, live_inv.chunk_tag,
      live_inv.chunk_len, live_inv.chunk_crc, live_inv.bufs_ok⟩
  · exact exec_after (i := .serialize) (s := live) (by decide)

end Sys2Proof.Tests
end

/-!
PROOFS. The scope family (spec/00_scope.md): byte order (R12), what a refused transaction and a failed command leave (R16,
R17), and that no step stops (R14, R66).
-/

namespace Sys2Proof.Machine

/-! ### Byte order (R12) -/

/-- The value of a concatenation: the left word stands above the right one. -/
theorem toNat_append_eq_add {m n : Nat} (x : BitVec m) (y : BitVec n) :
    (x ++ y).toNat = x.toNat * 2 ^ n + y.toNat := by
  rw [BitVec.toNat_append, ← Nat.shiftLeft_add_eq_or_of_lt y.isLt, Nat.shiftLeft_eq]

theorem toNat_be32 (b0 b1 b2 b3 : Byte) :
    (be32 [b0, b1, b2, b3]).toNat = b0.toNat * 2 ^ 24 + b1.toNat * 2 ^ 16 + b2.toNat * 2 ^ 8 + b3.toNat := by
  simp only [be32, toNat_append_eq_add]
  omega

/-- Settles O11: the value is that of three nested concatenations, and each inverse law is one of the model's own. -/
theorem bigEndianConversionsAreInverse : Obligations.BigEndianConversionsAreInverse :=
  ⟨toNat_be32, be32_beBytes, fun _ h => tagBytes_be32 h⟩

/-! ### The instructions that run a command word (R90, R222) -/

/-- A REG_WR runs a command word exactly when it writes CMD. -/
@[simp] theorem runsCommandWord_regWr {a v : Word} :
    (Instr.regWr a v).runsCommandWord = true ↔ a = Reg.offset .cmd := by
  by_cases h : a = Reg.offset .cmd <;> simp [Instr.runsCommandWord, Instr.isCmdWrite, Instr.command, h]

/-- A REG_WR runs a command exactly when it writes that command's word to CMD (R90, R92). -/
theorem command_regWr {a v : Word} {c : Command} :
    (Instr.regWr a v).command = some c ↔ a = Reg.offset .cmd ∧ v = encodeCommand c := by
  rw [← decodeCommand_eq_ok]
  by_cases h : a = Reg.offset .cmd
  · cases hv : decodeCommand v <;> simp [Instr.command, h, hv]
  · simp [Instr.command, h]

/-- An instruction that runs a command has that command's effect (R90). -/
theorem exec_of_command {i : Instr} {c : Command} (h : i.command = some c) (s : State) :
    exec i s = runCommand c s := by
  cases i
  case regWr a v =>
    obtain ⟨rfl, rfl⟩ := command_regWr.1 h
    exact execCommandWord_of_ok (decodeCommand_encodeCommand c) s
  all_goals cases h
  all_goals rfl

/-- An instruction that runs a command word runs one command, the same in every state, or reports IllegalCommand in every
state (R93, R94). -/
theorem exec_of_runsCommandWord {i : Instr} (h : i.runsCommandWord = true) :
    (∃ c, ∀ s, exec i s = runCommand c s) ∨ ∀ s, exec i s = .next (s.fail .illegalCommand) := by
  cases hc : i.command with
  | some c => exact .inl ⟨c, exec_of_command hc⟩
  | none =>
    cases i
    case regWr a v =>
      obtain rfl := runsCommandWord_regWr.1 h
      cases hv : decodeCommand v with
      | error e => exact .inr (execCommandWord_of_error hv)
      | ok c => exact .inl ⟨c, execCommandWord_of_ok hv⟩
    case regRd | inRd | inWr | cpayRd | cpayWr | outRd | outWr => cases h
    all_goals cases hc

/-! ### Refused transactions (R17, R251) -/

/-- CMD accepts every word, so no command word is refused. -/
theorem busRefused_of_runsCommandWord {i : Instr} (c : Config) (h : i.runsCommandWord = true) :
    busRefused c i = false := by
  cases i
  case regWr a v =>
    obtain rfl := runsCommandWord_regWr.1 h
    rfl
  case regRd | inRd | inWr | cpayRd | cpayWr | outRd | outWr => cases h
  all_goals rfl

theorem execRegRd_of_refused {a : Word} {s : State} (h : busRefused s.cfg (.regRd a) = true) :
    execRegRd a s = .next s.refuseRead := by
  rcases execRegRd_cases a s with ⟨-, e⟩ | ⟨r, rfl, -⟩
  · exact e
  · simp [busRefused] at h

theorem execRegWr_of_refused {a v : Word} {s : State} (h : busRefused s.cfg (.regWr a v) = true) :
    execRegWr a v s = .next s.refuseWrite := by
  rcases execRegWr_cases a v s with e | ⟨rfl, -⟩ | ⟨rfl, -⟩ | ⟨rfl, -⟩ | ⟨rfl, hv, -⟩ | ⟨rfl, -⟩
  · exact e
  case inr.inr.inr.inr.inl =>
    simp [busRefused] at h
    omega
  all_goals simp [busRefused] at h

theorem hostReadByte_of_refused {s : State} {b : Buf} {a : Word} (h : s.cap b ≤ a.toNat) :
    s.hostReadByte b a = s.refuseRead := if_pos h

/-- What the port does with a transaction it refuses (R17). -/
theorem exec_of_busRefused {i : Instr} {s : State} (h : busRefused s.cfg i = true) :
    exec i s = .next (if i.isRead then s.refuseRead else s.refuseWrite) := by
  cases i
  case regRd a => exact execRegRd_of_refused h
  case regWr a v => exact execRegWr_of_refused h
  case inRd a => exact congrArg _ (hostReadByte_of_refused (s := s) (b := .inBuf) (of_decide_eq_true h))
  case cpayRd a => exact congrArg _ (hostReadByte_of_refused (s := s) (b := .cpay) (of_decide_eq_true h))
  case outRd a => exact congrArg _ (hostReadByte_of_refused (s := s) (b := .out) (of_decide_eq_true h))
  case inWr a v => exact congrArg _ (if_pos (of_decide_eq_true h))
  case cpayWr a v => rfl
  case outWr a v => rfl
  all_goals cases h

/-- Settles O45: a command word is never refused, and the two ways the port refuses write BUSERR and a read's 0. -/
theorem refusedTransactionHasNoOtherEffect : Obligations.RefusedTransactionHasNoOtherEffect := by
  intro i s h
  constructor
  · by_contra hw
    rw [busRefused_of_runsCommandWord s.cfg (Bool.eq_true_of_not_eq_false hw)] at h
    cases h
  · rw [exec_of_busRefused h]
    cases i.isRead <;> rfl

/-! ### Failed commands (R16, R259) -/

/-- No command reads ERR: what the last one left there makes no difference (R27). -/
theorem runCommand_err (c : Command) (s : State) (e : BitVec 4) :
    runCommand c { s with err := e } = runCommand c s := by
  cases c <;> rfl

theorem exec_err_of_runsCommandWord {i : Instr} (h : i.runsCommandWord = true) (s : State) (e : BitVec 4) :
    exec i { s with err := e } = exec i s := by
  rcases exec_of_runsCommandWord h with ⟨c, hc⟩ | hc <;> rw [hc, hc]
  · exact runCommand_err c s e
  · rfl

theorem buildTag_succeeds_or_fails (s : State) (bs : List Byte) :
    (buildTag s bs).err = 0 ∨ ∃ e, buildTag s bs = s.fail e := by
  rcases buildTag_cases s bs with ⟨-, h⟩ | ⟨-, h⟩ <;> rw [h]
  · exact .inl rfl
  · exact .inr ⟨_, rfl⟩

/-- A command that completes has succeeded, or it is `fail(E)` for one E (R16, R27). -/
theorem runCommand_succeeds_or_fails {c : Command} {s t : State} (h : runCommand c s = .next t) :
    t.err = 0 ∨ ∃ e, t = s.fail e := by
  cases c
  case nop | crcInit =>
    cases h
    exact .inl rfl
  case crcFeed =>
    obtain ⟨-, rfl⟩ := execCrcFeed_next h
    exact .inl rfl
  case tagFromBytes =>
    cases h
    exact buildTag_succeeds_or_fails s _
  case tagFromText =>
    rcases execTagFromText_next h with ⟨-, rfl⟩ | ⟨-, -, rfl⟩
    · exact .inr ⟨_, rfl⟩
    · exact buildTag_succeeds_or_fails s _
  case chunkNew =>
    rcases execChunkNew_next h with ⟨-, rfl⟩ | ⟨-, -, rfl⟩
    · exact .inr ⟨_, rfl⟩
    · exact .inl rfl
  case serialize =>
    rcases execSerialize_next h with ⟨-, rfl⟩ | ⟨-, -, rfl⟩
    · exact .inr ⟨_, rfl⟩
    · exact .inl rfl
  case utf8Check =>
    rcases execUtf8Check_next h with ⟨-, rfl⟩ | ⟨-, -, ⟨-, rfl⟩ | ⟨-, rfl⟩⟩
    · exact .inr ⟨_, rfl⟩
    · exact .inr ⟨_, rfl⟩
    · exact .inl rfl
  case decode =>
    rcases execDecode_next h with ⟨-, rfl⟩ | ⟨-, -, rfl⟩ | ⟨-, -, -, rfl⟩ | ⟨-, -, -, rfl⟩ | ⟨-, -, -, -, rfl⟩
    case inr.inr.inr.inr => exact .inl rfl
    all_goals exact .inr ⟨_, rfl⟩

/-- A command word that leaves a nonzero ERR has ended in `fail(E)`. -/
theorem exec_eq_fail_of_err_ne_zero {i : Instr} {s t : State} (hi : i.runsCommandWord = true) (h : exec i s = .next t)
    (he : t.err ≠ 0) : ∃ e, t = s.fail e := by
  rcases exec_of_runsCommandWord hi with ⟨c, hc⟩ | hc <;> rw [hc] at h
  · exact (runCommand_succeeds_or_fails h).resolve_left he
  · cases h
    exact ⟨_, rfl⟩

/-- Settles O51: a failed command word has ended in `fail(E)`, which writes ERR alone. -/
theorem failedCommandWritesOnlyErr : Obligations.FailedCommandWritesOnlyErr := by
  intro i s t hi h he
  obtain ⟨e, rfl⟩ := exec_eq_fail_of_err_ne_zero hi h he
  rfl

/-- Settles O53: the state a failed command left differs in ERR alone, which no command reads. -/
theorem repeatedFailureReportsTheSameCode : Obligations.RepeatedFailureReportsTheSameCode := by
  intro i s t hi h he
  obtain ⟨e, rfl⟩ := exec_eq_fail_of_err_ne_zero hi h he
  exact (exec_err_of_runsCommandWord hi s e.code).trans h

/-! ### No step stops (R14, R66) -/

/-- The invariant says nothing of what the host still has to send. -/
theorem State.Inv.withHost {s : State} (h : s.Inv) (l : List HostEvent) : ({ s with host := l } : State).Inv where
  cfg_ok := h.cfg_ok
  err_le := h.err_le
  inLen_le := h.inLen_le
  outLen_ok := h.outLen_ok
  tag_ok := h.tag_ok
  chunk_tag := h.chunk_tag
  chunk_len := h.chunk_len
  chunk_crc := h.chunk_crc
  bufs_ok := h.bufs_ok

section
variable {s : State} (hs : s.Inv)
include hs

theorem execTagFromText_completes : ∃ t, execTagFromText s = .next t := by
  obtain ⟨hcap, -⟩ := hs.cfg_ok
  unfold execTagFromText
  split
  · exact ⟨_, rfl⟩
  · exact ⟨_, memRead_inBuf (by omega) _⟩

theorem execCrcFeed_completes : ∃ t, execCrcFeed s = .next t :=
  ⟨_, memRead_inBuf (by have := hs.inLen_le; omega) _⟩

/-- The operand fits IN, and CPAY is as large as IN (R6). -/
theorem execChunkNew_completes : ∃ t, execChunkNew s = .next t := by
  have hin := hs.inLen_le
  unfold execChunkNew
  split
  · exact ⟨_, rfl⟩
  · rw [memRead_inBuf (by omega), memWrite_cpay (by simp only [Memory.length_readBytes, State.cpayCap_eq]; omega)]
    exact ⟨_, rfl⟩

/-- The payload of a live chunk fits CPAY, and OUT has room for the 12 bytes around it (R7). -/
theorem execSerialize_completes : ∃ t, execSerialize s = .next t := by
  unfold execSerialize
  split
  · exact ⟨_, rfl⟩
  · have hlen := hs.chunk_len (Bool.eq_true_of_not_eq_false ‹_›)
    rw [State.cpayCap_eq] at hlen
    rw [memRead_cpay (by rw [State.cpayCap_eq]; omega), memWrite_out (by simp [State.outCap_eq]; omega)]
    exact ⟨_, rfl⟩

theorem execUtf8Check_completes : ∃ t, execUtf8Check s = .next t := by
  unfold execUtf8Check
  split
  · exact ⟨_, rfl⟩
  · have hlen := hs.chunk_len (Bool.eq_true_of_not_eq_false ‹_›)
    rw [memRead_cpay (by omega)]
    split <;> exact ⟨_, rfl⟩

/-- DECODE reads below IN_LEN only, so each of its five ends is reached (R142, R143). -/
theorem execDecode_completes : ∃ t, execDecode s = .next t := by
  obtain ⟨hcap, -⟩ := hs.cfg_ok
  have hin := hs.inLen_le
  rcases Nat.lt_or_ge s.inLen.toNat 12 with hn | hn
  · exact ⟨_, execDecode_short hn⟩
  cases ht : tagOk (s.inBuf.readBytes 4 4) with
  | false => exact ⟨_, execDecode_badTag (by omega) hn ht⟩
  | true =>
    rcases Nat.lt_or_ge s.inLen.toNat ((be32 (s.inBuf.readBytes 0 4)).toNat + 12) with hl | hl
    · exact ⟨_, execDecode_truncated hin hn ht hl⟩
    by_cases hc : crc32 (s.inBuf.readBytes 4 4 ++ s.inBuf.readBytes 8 (be32 (s.inBuf.readBytes 0 4)).toNat) =
      be32 (s.inBuf.readBytes (8 + (be32 (s.inBuf.readBytes 0 4)).toNat) 4)
    · exact ⟨_, execDecode_ok rfl hl (by omega) ht hc⟩
    · exact ⟨_, execDecode_mismatch hl (by omega) ht hc⟩

theorem runCommand_completes (c : Command) : ∃ t, runCommand c s = .next t := by
  cases c
  case nop | tagFromBytes | crcInit => exact ⟨_, rfl⟩
  case tagFromText => exact execTagFromText_completes hs
  case chunkNew => exact execChunkNew_completes hs
  case decode => exact execDecode_completes hs
  case serialize => exact execSerialize_completes hs
  case utf8Check => exact execUtf8Check_completes hs
  case crcFeed => exact execCrcFeed_completes hs

/-- Commands complete within their buffers, and every transaction is accepted or refused with a next state (R17, R66). -/
theorem exec_completes (i : Instr) : ∃ t, exec i s = .next t := by
  cases hw : i.runsCommandWord with
  | true =>
    rcases exec_of_runsCommandWord hw with ⟨c, hc⟩ | hc <;> rw [hc]
    · exact runCommand_completes hs c
    · exact ⟨_, rfl⟩
  | false =>
    cases i
    case regRd a =>
      rcases execRegRd_cases a s with ⟨-, e⟩ | ⟨r, -, e⟩
      · exact ⟨_, e⟩
      · exact ⟨_, e⟩
    case regWr a v =>
      rcases execRegWr_cases a v s with e | ⟨ha, -⟩ | ⟨-, e⟩ | ⟨-, e⟩ | ⟨-, -, e⟩ | ⟨-, e⟩
      case inr.inl => simp [runsCommandWord_regWr.2 ha] at hw
      all_goals exact ⟨_, e⟩
    case inRd | inWr | cpayRd | cpayWr | outRd | outWr => exact ⟨_, rfl⟩
    all_goals cases hw

end

/-- Settles O59: an idle step and a reset stop nowhere, and a transaction completes from the invariant. -/
theorem noStepStops : Obligations.NoStepStops := by
  intro s hs
  rcases step_cases s with ⟨-, h⟩ | ⟨d, rest, -, h⟩ | ⟨t, rest, -, h⟩ <;> rw [h]
  · exact ⟨_, rfl⟩
  · exact ⟨_, rfl⟩
  · exact exec_completes (hs.withHost rest) (decodeRecord t)

end Sys2Proof.Machine

/-!
PROOFS. The state family (spec/10_state.md): the STATUS word (R26), who writes ERR, TAG_VALID, CHUNK_VALID and the input
(R27 to R33, R61), and the invariant (R43 to R45), which reset establishes and every step keeps.
-/

namespace Sys2Proof.Machine

open State

/-! ### The STATUS word (R26) -/

/-- The four fields stand at 16, 9, 8 and 0, each above all the bits to its right. -/
theorem toNat_status (s : State) :
    s.status.toNat = s.busErr.toNat * 2 ^ 16 + s.chunkValid.toNat * 2 ^ 9 + s.tagValid.toNat * 2 ^ 8 + s.err.toNat := by
  simp only [status, toNat_append_eq_add, BitVec.toNat_ofBool, BitVec.toNat_ofNat]
  omega

/-- A bit of a word, by arithmetic. -/
theorem getLsbD_eq_of_toNat {n i : Nat} {w : BitVec n} {b : Bool} (h : w.toNat / 2 ^ i % 2 = b.toNat) :
    w.getLsbD i = b := by
  rw [BitVec.getLsbD, Nat.testBit_eq_decide_div_mod_eq, h]
  cases b <;> rfl

/-- A field of a word, by arithmetic. -/
theorem extractLsb'_eq_of_toNat {n i k : Nat} {w : BitVec n} {x : BitVec k} (h : w.toNat / 2 ^ i % 2 ^ k = x.toNat) :
    w.extractLsb' i k = x := by
  apply BitVec.eq_of_toNat_eq
  rw [BitVec.extractLsb'_toNat, Nat.shiftRight_eq_div_pow, h]

/-- Settles O13: each field is a quotient and remainder of the word's value. -/
theorem statusWordHoldsItsFields : Obligations.StatusWordHoldsItsFields := by
  intro s
  have hval : (s.readReg .status).toNat = _ := toNat_status s
  have herr := s.err.isLt
  have hb := s.busErr.toNat_le
  have hc := s.chunkValid.toNat_le
  have ht := s.tagValid.toNat_le
  refine ⟨?_, extractLsb'_eq_of_toNat ?_, extractLsb'_eq_of_toNat ?_, getLsbD_eq_of_toNat ?_,
    getLsbD_eq_of_toNat ?_, extractLsb'_eq_of_toNat ?_, getLsbD_eq_of_toNat ?_⟩
  case refine_1 =>
    show (s.readReg .status).toNat < 2 ^ 17
    omega
  case refine_3 | refine_6 =>
    show _ = 0
    omega
  all_goals omega

/-! ### What every instruction can do -/

/-- What a successful command leaves in TAG_VALID (R28). -/
def tagValidAfter : Command → Bool → Bool
  | .tagFromBytes, _ | .tagFromText, _ | .decode, _ => true
  | .nop, b | .chunkNew, b | .serialize, b | .utf8Check, b | .crcInit, b | .crcFeed, b => b

/-- What a successful command leaves in CHUNK_VALID (R29). -/
def chunkValidAfter : Command → Bool → Bool
  | .chunkNew, _ | .decode, _ => true
  | .tagFromBytes, _ | .tagFromText, _ => false
  | .nop, b | .serialize, b | .utf8Check, b | .crcInit, b | .crcFeed, b => b

/-- Every effect a successful command can have: ERR, the two flags, and the registers and buffers no host write reaches,
beside CRC_ACC (R27 to R29). -/
inductive CommandEffect (c : Command) (s : State) : State → Prop
  | intro (tag clen ccrc outLen crcAcc : Word) (cpay out : Memory) : CommandEffect c s
      { s with
        err := 0, tagValid := tagValidAfter c s.tagValid, chunkValid := chunkValidAfter c s.chunkValid
        tag, clen, ccrc, outLen, crcAcc, cpay, out }

/-- Every effect an instruction that runs no command word can have (R221 to R228). -/
inductive PortEffect (i : Instr) (s : State) : State → Prop
  /-- A refusal, a read, or a write of STATUS, ARG or CRC_ACC. -/
  | register (busErr : Bool) (arg crcAcc : Word) (reads : List Word) :
      PortEffect i s { s with busErr, arg, crcAcc, reads }
  | inLen (v : Word) (hv : v.toNat ≤ s.cfg.inCap) : PortEffect i s { s with inLen := v }
  | inBuf (a v : Word) (hi : i = .inWr a v) (ha : a.toNat < s.cfg.inCap) :
      PortEffect i s { s with inBuf := s.inBuf.write a.toNat (v.extractLsb' 0 8) }

theorem buildTag_effect {c : Command} (hc : c = .tagFromBytes ∨ c = .tagFromText) (s : State) (bs : List Byte) :
    (∃ e, buildTag s bs = s.fail e) ∨ CommandEffect c s (buildTag s bs) := by
  rcases buildTag_cases s bs with ⟨-, h⟩ | ⟨-, h⟩ <;> rw [h]
  · rcases hc with rfl | rfl <;> exact .inr (.intro ..)
  · exact .inl ⟨_, rfl⟩

/-- A command that completes is `fail(E)` for one E, or has succeeded with the effect of its row. -/
theorem runCommand_effect {c : Command} {s t : State} (h : runCommand c s = .next t) :
    (∃ e, t = s.fail e) ∨ CommandEffect c s t := by
  cases c
  case nop | crcInit =>
    cases h
    exact .inr (.intro ..)
  case crcFeed =>
    obtain ⟨-, rfl⟩ := execCrcFeed_next h
    exact .inr (.intro ..)
  case tagFromBytes =>
    cases h
    exact buildTag_effect (.inl rfl) s _
  case tagFromText =>
    rcases execTagFromText_next h with ⟨-, rfl⟩ | ⟨-, -, rfl⟩
    · exact .inl ⟨_, rfl⟩
    · exact buildTag_effect (.inr rfl) s _
  case chunkNew =>
    rcases execChunkNew_next h with ⟨-, rfl⟩ | ⟨-, -, rfl⟩
    · exact .inl ⟨_, rfl⟩
    · exact .inr (.intro ..)
  case serialize =>
    rcases execSerialize_next h with ⟨-, rfl⟩ | ⟨-, -, rfl⟩
    · exact .inl ⟨_, rfl⟩
    · exact .inr (.intro ..)
  case utf8Check =>
    rcases execUtf8Check_next h with ⟨-, rfl⟩ | ⟨-, -, ⟨-, rfl⟩ | ⟨-, rfl⟩⟩
    · exact .inl ⟨_, rfl⟩
    · exact .inl ⟨_, rfl⟩
    · exact .inr (.intro ..)
  case decode =>
    rcases execDecode_next h with ⟨-, rfl⟩ | ⟨-, -, rfl⟩ | ⟨-, -, -, rfl⟩ | ⟨-, -, -, rfl⟩ | ⟨-, -, -, -, rfl⟩
    case inr.inr.inr.inr => exact .inr (.intro ..)
    all_goals exact .inl ⟨_, rfl⟩

/-- A buffer read answers the host or is refused: either way the block keeps all but BUSERR. -/
theorem hostReadByte_effect (i : Instr) (s : State) (b : Buf) (a : Word) : PortEffect i s (s.hostReadByte b a) := by
  rcases hostReadByte_cases s b a with ⟨-, h⟩ | ⟨-, h⟩ <;> rw [h] <;> exact .register ..

theorem command_of_runsCommandWord_eq_false {i : Instr} (h : i.runsCommandWord = false) : i.command = none := by
  simp only [Instr.runsCommandWord, Bool.or_eq_false_iff] at h
  simpa using h.2

theorem runsCommandWord_of_command {i : Instr} {c : Command} (h : i.command = some c) : i.runsCommandWord = true := by
  simp [Instr.runsCommandWord, h]

theorem exec_portEffect {i : Instr} {s t : State} (hw : i.runsCommandWord = false) (h : exec i s = .next t) :
    PortEffect i s t := by
  cases i
  case regRd a =>
    rcases execRegRd_cases a s with ⟨-, e⟩ | ⟨r, -, e⟩
    all_goals
      cases e.symm.trans h
      exact .register ..
  case regWr a v =>
    rcases execRegWr_cases a v s with e | ⟨ha, -⟩ | ⟨-, e⟩ | ⟨-, e⟩ | ⟨-, hv, e⟩ | ⟨-, e⟩
    case inr.inl => simp [runsCommandWord_regWr.2 ha] at hw
    all_goals cases e.symm.trans h
    case inr.inr.inl => split <;> exact .register ..
    case inr.inr.inr.inr.inl => exact .inLen v hv
    all_goals exact .register ..
  case inWr a v =>
    rcases execInWr_cases a v s with ⟨-, e⟩ | ⟨ha, e⟩ <;> cases e.symm.trans h
    · exact .register ..
    · exact .inBuf a v rfl ha
  case inRd a | cpayRd a | outRd a =>
    cases h
    exact hostReadByte_effect ..
  case cpayWr | outWr =>
    cases h
    exact .register ..
  all_goals cases hw

/-- A command word that is no command's reports IllegalCommand (R93). -/
theorem exec_of_illegalWord {i : Instr} (hw : i.runsCommandWord = true) (hc : i.command = none) (s : State) :
    exec i s = .next (s.fail .illegalCommand) := by
  cases i
  case regWr a v =>
    obtain rfl := runsCommandWord_regWr.1 hw
    rcases execCommandWord_cases v s with ⟨c, hv, -⟩ | h
    · rw [command_regWr.2 ⟨rfl, hv⟩] at hc
      cases hc
    · exact h
  case regRd | inRd | inWr | cpayRd | cpayWr | outRd | outWr => cases hw
  all_goals cases hc

/-- Every instruction that answers a next state is a command word that failed, a command that succeeded, or no command word
at all. -/
theorem exec_effect {i : Instr} {s t : State} (h : exec i s = .next t) :
    (i.runsCommandWord = true ∧ ∃ e, t = s.fail e) ∨
    (∃ c, i.command = some c ∧ CommandEffect c s t) ∨
    (i.runsCommandWord = false ∧ PortEffect i s t) := by
  cases hw : i.runsCommandWord with
  | false => exact .inr (.inr ⟨rfl, exec_portEffect hw h⟩)
  | true =>
    cases hc : i.command with
    | some c => exact (runCommand_effect ((exec_of_command hc s).symm.trans h)).imp (⟨rfl, ·⟩) (.inl ⟨c, rfl, ·⟩)
    | none =>
      cases (exec_of_illegalWord hw hc s).symm.trans h
      exact .inl ⟨rfl, _, rfl⟩

/-! ### Who writes what (R27 to R33, R61) -/

theorem ErrorKind.toNat_code_le (e : ErrorKind) : e.code.toNat ≤ 8 := by
  cases e <;> decide

/-- Settles O47: a failure leaves its code, a success 0, and no command reads ERR. -/
theorem errIsWrittenByCommandsOnly : Obligations.ErrIsWrittenByCommandsOnly := by
  intro i s t h
  refine ⟨fun hw => ?_, fun hw => ⟨?_, fun e => (exec_err_of_runsCommandWord hw s e).trans h⟩⟩
  · cases exec_portEffect hw h <;> rfl
  · by_cases h0 : t.err = 0
    · simp [h0]
    · obtain ⟨e, rfl⟩ := exec_eq_fail_of_err_ne_zero hw h h0
      exact e.toNat_code_le

/-- The two flags change by a successful command alone, and as its row says (R28, R29). -/
theorem exec_flags {i : Instr} {s t : State} (h : exec i s = .next t) :
    (∃ c, i.command = some c ∧ t.err = 0 ∧
      t.tagValid = tagValidAfter c s.tagValid ∧ t.chunkValid = chunkValidAfter c s.chunkValid) ∨
    ((t.err = 0 → i.command = none) ∧ t.tagValid = s.tagValid ∧ t.chunkValid = s.chunkValid) := by
  rcases exec_effect h with ⟨-, e, rfl⟩ | ⟨c, hc, ⟨⟩⟩ | ⟨hw, he⟩
  · exact .inr ⟨fun h0 => absurd h0 (fail_err_ne_zero s e), rfl, rfl⟩
  · exact .inl ⟨c, hc, rfl, rfl, rfl⟩
  · refine .inr ⟨fun _ => command_of_runsCommandWord_eq_false hw, ?_⟩
    cases he <;> exact ⟨rfl, rfl⟩

/-- Settles O48: by the row of each successful command; all else keeps TAG_VALID. -/
theorem tagValidRisesOnlyByTagCommands : Obligations.TagValidRisesOnlyByTagCommands := by
  intro i s t h
  rcases exec_flags h with ⟨c, hc, h0, ht, -⟩ | ⟨hn, ht, -⟩ <;> rw [ht]
  · cases c <;> simp [hc, h0, tagValidAfter]
  · refine ⟨id, fun hne => absurd rfl hne, fun h0 => ?_⟩
    simp [hn h0]

/-- Settles O49: by the row of each successful command; all else keeps CHUNK_VALID. -/
theorem chunkValidFollowsItsWriters : Obligations.ChunkValidFollowsItsWriters := by
  intro i s t h
  rcases exec_flags h with ⟨c, hc, h0, -, ht⟩ | ⟨hn, -, ht⟩ <;> rw [ht]
  · cases c <;> simp [hc, h0, chunkValidAfter]
  · refine ⟨fun h0 => ?_, fun h0 => ?_, fun _ => rfl⟩ <;> simp [hn h0]

/-- Settles O54: a command's effect has no part of the input, and of the port's only the stored byte of IN_WR is in IN. -/
theorem onlyTheHostWritesTheInput : Obligations.OnlyTheHostWritesTheInput := by
  intro i s t h
  rcases exec_effect h with ⟨-, e, rfl⟩ | ⟨c, -, ⟨⟩⟩ | ⟨hw, he⟩
  · exact ⟨fun _ => ⟨rfl, rfl, rfl, rfl⟩, fun _ => rfl, rfl, rfl⟩
  · exact ⟨fun _ => ⟨rfl, rfl, rfl, rfl⟩, fun _ => rfl, rfl, rfl⟩
  · refine ⟨fun hr => ?_, fun hi => ?_, ?_⟩
    · simp [hw] at hr
    · cases he with
      | inBuf a v e => exact absurd e (hi a v)
      | register | inLen => rfl
    · cases he <;> exact ⟨rfl, rfl⟩

/-! ### The invariant (R43 to R45) -/

/-- A reset leaves no tag, no chunk, no length and no error, and a draw is cut at its buffer's capacity (R280, R281). -/
theorem State.inv_powerOn {c : Config} (hc : c.wellFormed) (d : ResetDraw) : (powerOn c d).Inv where
  cfg_ok := hc
  err_le := Nat.zero_le _
  inLen_le := Nat.zero_le _
  outLen_ok := .inl rfl
  tag_ok h := by cases h
  chunk_tag h := by cases h
  chunk_len h := by cases h
  chunk_crc h := by cases h
  bufs_ok b := by cases b <;> exact ⟨Memory.wf_ofDraw .., Memory.within_ofDraw _ _⟩

/-- Settles O57: State.reset is the power-on of one legal configuration. -/
theorem invariantHoldsAfterReset : Obligations.InvariantHoldsAfterReset :=
  ⟨fun _ d hc => inv_powerOn hc d, inv_powerOn (by decide) _⟩

theorem buf_setBuf (s : State) (b b' : Buf) (m : Memory) : (s.setBuf b m).buf b' = if b' = b then m else s.buf b' := by
  cases b <;> cases b' <;> rfl

theorem cap_setBuf (s : State) (b b' : Buf) (m : Memory) : (s.setBuf b m).cap b' = s.cap b' := by
  cases b <;> rfl

/-- A write within one buffer keeps all three canonical and within their capacities. -/
theorem bufOk_setBuf {s : State} (h : ∀ b, s.bufOk b) {b : Buf} {m : Memory} (hwf : m.wf) (hin : m.within (s.cap b))
    (b' : Buf) : (s.setBuf b m).bufOk b' := by
  rw [bufOk, buf_setBuf, cap_setBuf]
  split
  case isTrue e => exact e ▸ ⟨hwf, hin⟩
  case isFalse => exact h b'

theorem bufOk_writeBytes {s : State} (h : ∀ b, s.bufOk b) {b : Buf} {bs : List Byte} (hle : bs.length ≤ s.cap b)
    (b' : Buf) : (s.setBuf b ((s.buf b).writeBytes 0 bs)).bufOk b' :=
  bufOk_setBuf h (Memory.wf_writeBytes (h b).1 0 bs) (Memory.within_writeBytes (h b).2 (by omega)) b'

namespace State.Inv

variable {s : State} (hs : s.Inv)
include hs

/-- The invariant says nothing of BUSERR, ARG, CRC_ACC and the values read. -/
theorem withPortRegisters (busErr : Bool) (arg crcAcc : Word) (reads : List Word) :
    ({ s with busErr, arg, crcAcc, reads } : State).Inv :=
  { hs with }

theorem fail (e : ErrorKind) : (s.fail e).Inv :=
  { hs with err_le := e.toNat_code_le }

theorem succeed : s.succeed.Inv :=
  { hs with err_le := Nat.zero_le _ }

theorem afterPortEffect {i : Instr} {t : State} (h : PortEffect i s t) : t.Inv := by
  cases h with
  | register => exact hs.withPortRegisters ..
  | inLen v hv => exact { hs with inLen_le := hv }
  | inBuf a v _ ha =>
    exact { hs with
      bufs_ok := bufOk_setBuf hs.bufs_ok (b := .inBuf) (Memory.wf_write (hs.bufs_ok .inBuf).1 ..)
        (Memory.within_write (hs.bufs_ok .inBuf).2 ha _) }

/-- Taking a tag of four letters: the chunk built on the old one is dropped (R29, R43). -/
theorem withTag {bs : List Byte} (hlen : bs.length = 4) (ht : tagOk bs = true) :
    ({ s with tag := be32 bs, tagValid := true, chunkValid := false, err := 0 } : State).Inv :=
  { hs with
    err_le := Nat.zero_le _
    tag_ok := fun _ => (congrArg tagOk (tagBytes_be32 hlen)).trans ht
    chunk_tag := fun h => by cases h
    chunk_len := fun h => by cases h
    chunk_crc := fun h => by cases h }

/-- Taking a chunk of the current tag: its payload fits CPAY and its checksum is that of tag and payload (R44). -/
theorem withChunk (hv : s.tagValid = true) {p : List Byte} {len sum : Word} (hlen : len.toNat = p.length)
    (hcap : p.length ≤ s.cfg.cpayCap) (hsum : crc32 (tagBytes s.tag ++ p) = sum) :
    ({ s with cpay := s.cpay.writeBytes 0 p, clen := len, ccrc := sum, chunkValid := true, err := 0 } : State).Inv := by
  have hp : (s.cpay.writeBytes 0 p).readBytes 0 p.length = p :=
    Memory.readBytes_writeBytes (hs.bufs_ok .cpay).1 0 p
  exact { hs with
    err_le := Nat.zero_le _
    chunk_tag := fun _ => hv
    chunk_len := fun _ => hlen.trans_le hcap
    chunk_crc := fun _ => by simp only [payload, hlen, hp, hsum]
    bufs_ok := bufOk_writeBytes hs.bufs_ok (b := .cpay) hcap }

theorem afterBuildTag {bs : List Byte} (hlen : bs.length = 4) : (buildTag s bs).Inv := by
  rcases buildTag_cases s bs with ⟨ht, h⟩ | ⟨-, h⟩ <;> rw [h]
  · exact hs.withTag hlen ht
  · exact hs.fail _

theorem afterChunkNew {t : State} (h : execChunkNew s = .next t) : t.Inv := by
  rcases execChunkNew_next h with ⟨-, rfl⟩ | ⟨hv, hle, rfl⟩
  · exact hs.fail _
  · exact hs.withChunk hv (Memory.length_readBytes ..).symm ((Memory.length_readBytes ..).trans_le hle) rfl

/-- DECODE takes a tag, then a chunk of it whose stored checksum was found right (R142). -/
theorem afterDecode {t : State} (h : execDecode s = .next t) : t.Inv := by
  rcases execDecode_next h with ⟨-, rfl⟩ | ⟨-, -, rfl⟩ | ⟨-, -, -, rfl⟩ | ⟨-, -, -, rfl⟩ | ⟨-, ht, hcrc, hcap, rfl⟩
  case inr.inr.inr.inr =>
    have hlen := Memory.length_readBytes s.inBuf 8 (be32 (s.inBuf.readBytes 0 4)).toNat
    have htag := Memory.length_readBytes s.inBuf 4 4
    refine (hs.withTag htag ht).withChunk rfl hlen.symm (hlen.trans_le ((Nat.le_add_right _ 12).trans hcap)) ?_
    rw [tagBytes_be32 htag]
    exact hcrc
  all_goals exact hs.fail _

/-- SERIALIZE writes 12 + CLEN bytes, which fit OUT and do not wrap in OUT_LEN (R5, R7, R45). -/
theorem afterSerialize {t : State} (h : execSerialize s = .next t) : t.Inv := by
  rcases execSerialize_next h with ⟨-, rfl⟩ | ⟨-, hle, rfl⟩
  · exact hs.fail _
  · obtain ⟨-, hmax⟩ := hs.cfg_ok
    rw [cpayCap_eq] at hle
    have hout : (BitVec.ofNat 32 (12 + s.clen.toNat)).toNat = 12 + s.clen.toNat :=
      Nat.mod_eq_of_lt (by omega)
    exact { hs with
      err_le := Nat.zero_le _
      outLen_ok := .inr (by simp only [hout, outCap_eq]; omega)
      bufs_ok := bufOk_writeBytes hs.bufs_ok (b := .out) (by simp [outCap_eq]; omega) }

theorem afterCommand {c : Command} {t : State} (h : runCommand c s = .next t) : t.Inv := by
  cases c
  case chunkNew => exact hs.afterChunkNew h
  case decode => exact hs.afterDecode h
  case serialize => exact hs.afterSerialize h
  case nop =>
    cases h
    exact hs.succeed
  case tagFromBytes =>
    cases h
    exact hs.afterBuildTag rfl
  case tagFromText =>
    rcases execTagFromText_next h with ⟨-, rfl⟩ | ⟨-, -, rfl⟩
    · exact hs.fail _
    · exact hs.afterBuildTag (Memory.length_readBytes ..)
  case utf8Check =>
    rcases execUtf8Check_next h with ⟨-, rfl⟩ | ⟨-, -, ⟨-, rfl⟩ | ⟨-, rfl⟩⟩
    · exact hs.fail _
    · exact hs.fail _
    · exact hs.succeed
  case crcInit =>
    cases h
    exact hs.succeed.withPortRegisters ..
  case crcFeed =>
    obtain ⟨-, rfl⟩ := execCrcFeed_next h
    exact hs.succeed.withPortRegisters ..

theorem afterInstr {i : Instr} {t : State} (h : exec i s = .next t) : t.Inv := by
  rcases exec_effect h with ⟨-, e, rfl⟩ | ⟨c, hc, -⟩ | ⟨-, he⟩
  · exact hs.fail e
  · exact hs.afterCommand ((exec_of_command hc s).symm.trans h)
  · exact hs.afterPortEffect he

/-- A reset is a power-on in the same configuration; what the host sends and has read is in no part of the invariant. -/
theorem afterReset (d : ResetDraw) : (s.takeReset d).Inv :=
  ((inv_powerOn hs.cfg_ok d).withHost s.host).withPortRegisters _ _ _ s.reads

end State.Inv

/-- Settles O58: an idle step changes nothing, a reset establishes the invariant, and every transaction keeps it. -/
theorem stepKeepsInvariant : Obligations.StepKeepsInvariant := by
  intro s t hs h
  rcases step_cases s with ⟨-, e⟩ | ⟨d, rest, -, e⟩ | ⟨u, rest, -, e⟩ <;> rw [e] at h
  · cases h
    exact hs
  · cases h
    exact (hs.withHost rest).afterReset d
  · exact (hs.withHost rest).afterInstr h

end Sys2Proof.Machine

/-!
PROOFS. The memory family (spec/20_memory.md): a step is the decoded transaction (R70), what each command leaves unchanged
(R65, R95), and which transactions are idempotent (R74).
-/

namespace Sys2Proof.Machine

/-- Settles O5: the model's own lemma on a step with a transaction pending. -/
theorem stepRunsTheDecodedTransaction : Obligations.StepRunsTheDecodedTransaction :=
  fun _ _ _ h => step_bus h

/-! ### What a command leaves unchanged (R65, R95) -/

/-- MemWrite at address 0 keeps every byte from the end of its sequence on (R14). -/
theorem Memory.read_writeBytes_zero_of_le {m : Memory} (h : m.wf) {bs : List Byte} {a : Nat} (ha : bs.length ≤ a) :
    (m.writeBytes 0 bs).read a = m.read a := by
  rw [read_writeBytes h, if_neg (by omega)]

/-- The row of the two tag commands (R112, R113). -/
theorem buildTag_row (s : State) (bs : List Byte) :
    buildTag s bs = { s with
      tag := (buildTag s bs).tag, tagValid := (buildTag s bs).tagValid
      chunkValid := (buildTag s bs).chunkValid, err := (buildTag s bs).err } := by
  rcases buildTag_cases s bs with ⟨-, h⟩ | ⟨-, h⟩
  · rw [h]
  · rw [h]
    rfl

/-- Settles O50: a failure writes ERR alone, and a success writes its row, its buffer by one MemWrite from address 0. -/
theorem commandsWriteOnlyTheirRow : Obligations.CommandsWriteOnlyTheirRow := by
  intro s t hcpay hout
  refine ⟨?nopOrUtf8Check, ?tag, ?chunkNew, ?decode, ?serialize, ?crc⟩
  case nopOrUtf8Check =>
    rintro (h | h)
    · cases h
      rfl
    · rcases execUtf8Check_next h with ⟨-, rfl⟩ | ⟨-, -, ⟨-, rfl⟩ | ⟨-, rfl⟩⟩ <;> rfl
  case tag =>
    rintro (h | h)
    · cases h
      exact buildTag_row s _
    · rcases execTagFromText_next h with ⟨-, rfl⟩ | ⟨-, -, rfl⟩
      · rfl
      · exact buildTag_row s _
  case chunkNew =>
    intro h
    rcases execChunkNew_next h with ⟨-, rfl⟩ | ⟨-, -, rfl⟩
    · exact ⟨rfl, fun _ _ => rfl⟩
    · exact ⟨rfl, fun a ha => Memory.read_writeBytes_zero_of_le hcpay (by simpa using ha)⟩
  case decode =>
    intro h
    rcases execDecode_next h with ⟨-, rfl⟩ | ⟨-, -, rfl⟩ | ⟨-, -, -, rfl⟩ | ⟨-, -, -, rfl⟩ | ⟨-, -, -, -, rfl⟩
    case inr.inr.inr.inr =>
      exact ⟨rfl, fun a ha => Memory.read_writeBytes_zero_of_le hcpay (by simpa using ha)⟩
    all_goals exact ⟨rfl, fun _ _ => rfl⟩
  case serialize =>
    intro h
    rcases execSerialize_next h with ⟨-, rfl⟩ | ⟨-, -, rfl⟩
    · exact ⟨rfl, fun _ _ => rfl⟩
    · exact ⟨rfl, fun a ha => Memory.read_writeBytes_zero_of_le hout (by simp; omega)⟩
  case crc =>
    rintro (h | h)
    · cases h
      rfl
    · obtain ⟨-, rfl⟩ := execCrcFeed_next h
      rfl

/-! ### Idempotent transactions (R74) -/

/-- Storing a byte twice is storing it once. -/
theorem Memory.write_write_same {m : Memory} (h : m.wf) (a : Nat) (b : Byte) :
    (m.write a b).write a b = m.write a b := by
  have hw := wf_write h a b
  refine ext (wf_write hw a b) hw fun k => ?_
  rw [read_write hw, read_write h]
  split <;> rfl

/-- No register shows what the host has read so far. -/
theorem readReg_reads (s : State) (l : List Word) (r : Reg) : ({ s with reads := l } : State).readReg r = s.readReg r := by
  cases r <;> rfl

/-- A byte read below the capacity, in the terms of `busRefused`, answers a value and does nothing else, and the value is
the same whatever was read before (R97). -/
theorem hostReadByte_of_accepted {s : State} {b : Buf} {a : Word} (h : decide (s.cap b ≤ a.toNat) = false) :
    ∃ v, ∀ l, ({ s with reads := l } : State).hostReadByte b a = { s with reads := l ++ [v] } := by
  refine ⟨((s.buf b).read a.toNat).setWidth 32, fun l => ?_⟩
  rcases hostReadByte_cases { s with reads := l } b a with ⟨hle, -⟩ | ⟨-, e⟩
  · exact absurd hle (of_decide_eq_false h)
  · cases b <;> exact e

/-- An accepted read of a register or a byte does the same (R97, R221). -/
theorem exec_of_acceptedRead {i : Instr} {s : State} (hi : i.isRead = true) (hb : busRefused s.cfg i = false) :
    ∃ v, ∀ l, exec i { s with reads := l } = .next { s with reads := l ++ [v] } := by
  cases i
  case regRd a =>
    cases hr : regAt a with
    | none => simp [busRefused, hr] at hb
    | some r =>
      refine ⟨s.readReg r, fun l => ?_⟩
      rw [← readReg_reads s l r]
      simp only [exec, execRegRd, hr]
      rfl
  case inRd a => exact (hostReadByte_of_accepted (b := .inBuf) hb).imp fun _ hv l => congrArg _ (hv l)
  case cpayRd a => exact (hostReadByte_of_accepted (b := .cpay) hb).imp fun _ hv l => congrArg _ (hv l)
  case outRd a => exact (hostReadByte_of_accepted (b := .out) hb).imp fun _ hv l => congrArg _ (hv l)
  all_goals cases hi

/-- IN_LEN takes a length up to the capacity of IN (R33, R222). -/
theorem execRegWr_inLen (v : Word) (s : State) :
    execRegWr (Reg.offset .inLen) v s =
      .next (if s.cfg.inCap < v.toNat then s.refuseWrite else { s with inLen := v }) := rfl

/-- A write of ARG, IN_LEN or CRC_ACC, an IN_LEN above the capacity included, made twice is made once. -/
theorem execRegWr_idempotent {a v : Word} {s t : State}
    (ha : a = Reg.offset .arg ∨ a = Reg.offset .inLen ∨ a = Reg.offset .crcAcc) (h : execRegWr a v s = .next t) :
    execRegWr a v t = .next t := by
  rcases ha with rfl | rfl | rfl
  case inr.inl =>
    rw [execRegWr_inLen] at h ⊢
    split at h <;> cases h
    · exact congrArg _ (if_pos ‹_›)
    · exact congrArg _ (if_neg ‹_›)
  all_goals
    cases h
    rfl

/-- IN_WR made twice is made once: refused both times, or the same byte stored again. -/
theorem execInWr_idempotent {a v : Word} {s t : State} (hs : s.inBuf.wf) (h : execInWr a v s = .next t) :
    execInWr a v t = .next t := by
  rcases execInWr_cases a v s with ⟨ha, e⟩ | ⟨ha, e⟩ <;> cases e.symm.trans h
  · exact congrArg _ (if_pos ha)
  · refine (congrArg _ (if_neg (Nat.not_le.2 ha))).trans ?_
    simp only [Memory.write_write_same hs]

/-- The operand of one byte 0x01 in IN, beside an accumulator. -/
def oneByteOperand (acc : Word) : State := { State.reset with crcAcc := acc, inBuf := [(0, 0x01)], inLen := 1 }

/-- A CRC_FEED written to CMD feeds that byte to the accumulator (R197). -/
theorem exec_crcFeed_oneByteOperand (acc : Word) :
    exec (.regWr 0x00#32 0x00000008#32) (oneByteOperand acc) = .next (oneByteOperand (crcByte acc 0x01)) := rfl

/-- Settles O46: reads add one value to those read, plain writes repeat themselves, and CRC_FEED of one byte does not. -/
theorem readsAndPlainWritesAreIdempotent : Obligations.ReadsAndPlainWritesAreIdempotent := by
  refine ⟨?read, fun a v s t ha h => execRegWr_idempotent ha h, fun a v s t hs h => execInWr_idempotent hs h, ?crcFeed⟩
  case read =>
    intro i s t hi hb h
    obtain ⟨v, hv⟩ := exec_of_acceptedRead hi hb
    cases (hv s.reads).symm.trans h
    exact ⟨v, rfl, hv _⟩
  case crcFeed =>
    have once : crcByte 0 0x01 = 0x77073096#32 := by decide
    have twice : crcByte 0x77073096 0x01 ≠ 0x77073096#32 := by decide
    refine ⟨oneByteOperand 0, _, _, exec_crcFeed_oneByteOperand _, exec_crcFeed_oneByteOperand _, ?_, ?_⟩
    · rw [once]
      exact twice
    · rw [once]
      decide

end Sys2Proof.Machine

/-!
PROOFS. The encoding family (spec/30_encoding.md): the two decoders (R90 to R94, R97, R98) and their encoder, what an encoded
instruction does once it is placed (R90), the codes of each command (R93, R95), and the expansion of `load` (R101).
-/

namespace Sys2Proof.Machine

/-! ### The bits of an encoded instruction (R91, R97) -/

/-- The three fields of a record stand at 35, 3 and 0, each above all the bits to its right. -/
theorem toNat_toBits (t : HostBus) : t.toBits.toNat = t.wdata.toNat * 2 ^ 35 + t.addr.toNat * 2 ^ 3 + t.kind.toNat := by
  simp only [HostBus.toBits, toNat_append_eq_add]
  omega

/-- A record is read back from its bits. -/
theorem ofBits_toBits (t : HostBus) : HostBus.ofBits t.toBits = t := by
  have hval := toNat_toBits t
  have hkind := t.kind.isLt
  have haddr := t.addr.isLt
  have hwdata := t.wdata.isLt
  have ekind : t.toBits.extractLsb' 0 3 = t.kind := extractLsb'_eq_of_toNat (by omega)
  have eaddr : t.toBits.extractLsb' 3 32 = t.addr := extractLsb'_eq_of_toNat (by omega)
  have ewdata : t.toBits.extractLsb' 35 32 = t.wdata := extractLsb'_eq_of_toNat (by omega)
  simp only [HostBus.ofBits, ekind, eaddr, ewdata]

/-- An encoded form is read back from its number. -/
theorem encodedOfNat_toNat (e : Encoded) : encodedOfNat e.width e.toNat = e := by
  cases e with
  | cmd w => simp [encodedOfNat, Encoded.width, Encoded.toNat]
  | hostBus t => simp [encodedOfNat, Encoded.width, Encoded.toNat, ofBits_toBits]

theorem decodeTableWord_eq_some {nbits w : Nat} {i : Instr} :
    decodeTableWord nbits w = some i ↔ decodeEncoded (encodedOfNat nbits w) = .ok i := by
  unfold decodeTableWord
  cases decodeEncoded (encodedOfNat nbits w) <;> simp

/-- The decoder undoes the encoder, row by row. -/
theorem decodeEncoded_encode (i : Instr) : decodeEncoded (encode i) = .ok i := by
  cases i <;> rfl

/-- Settles O2: the encoded form is read back from its number, and the instruction from its encoded form. -/
theorem encodedInstructionDecodesBack : Obligations.EncodedInstructionDecodesBack := by
  intro i _
  rw [decodeTableWord_eq_some, encodedOfNat_toNat]
  exact decodeEncoded_encode i

/-- Settles O1: the decoders evaluated at each row; no row of R98 looks at the address or the datum. -/
theorem specWordsDecodeToTheirRows : Obligations.SpecWordsDecodeToTheirRows :=
  ⟨by decide, by decide, fun _ _ => ⟨rfl, rfl, rfl, rfl, rfl, rfl, rfl, rfl⟩, by decide⟩

/-! ### Legal and illegal command words (R93, R94) -/

/-- The reserved-bits check is made first. -/
theorem decodeCommand_of_rsvd_ne_zero {w : Word} (h : rsvd w ≠ 0) : decodeCommand w = .error .reservedBits := if_pos h

theorem decodeCommand_of_nine_le_opc {w : Word} (hr : rsvd w = 0) (ho : 0x09 ≤ (opc w).toNat) :
    decodeCommand w = .error .unassignedOpcode := by
  refine (if_neg (not_not.2 hr)).trans ?_
  split
  case h_10 => rfl
  all_goals omega

theorem decodeCommand_of_opc_lt_nine {w : Word} (hr : rsvd w = 0) (ho : (opc w).toNat < 0x09) :
    ∃ c, decodeCommand w = .ok c := by
  unfold decodeCommand
  rw [if_neg (not_not.2 hr)]
  generalize (opc w).toNat = n at ho
  interval_cases n <;> exact ⟨_, rfl⟩

/-- A word is illegal exactly when RSVD is not 0 or OPC is 0x09 to 0xFF. -/
theorem decodeCommand_isError {w : Word} : (∃ e, decodeCommand w = .error e) ↔ rsvd w ≠ 0 ∨ 0x09 ≤ (opc w).toNat := by
  by_cases hr : rsvd w = 0
  · by_cases ho : 0x09 ≤ (opc w).toNat
    · exact iff_of_true ⟨_, decodeCommand_of_nine_le_opc hr ho⟩ (.inr ho)
    · obtain ⟨c, hc⟩ := decodeCommand_of_opc_lt_nine hr (Nat.lt_of_not_le ho)
      simp [hc, hr, ho]
  · exact iff_of_true ⟨_, decodeCommand_of_rsvd_ne_zero hr⟩ (.inl hr)

/-- Settles O3: the legal words are the encoder's, the illegal ones those either check finds. -/
theorem commandWordIsOneOfNineOrIllegal : Obligations.CommandWordIsOneOfNineOrIllegal :=
  fun _ => ⟨fun _ => decodeCommand_eq_ok, decodeCommand_isError⟩

/-! ### Words written to CMD (R90, R93) -/

/-- A REG_WR to CMD executes its datum as a command word (R222). -/
theorem exec_regWr_cmd (w : Word) (s : State) : exec (.regWr 0x00#32 w) s = execCommandWord w s := rfl

/-- A write of a legal word to CMD is the command it decodes to. -/
theorem exec_regWr_cmd_of_ok {w : Word} {c : Command} (h : decodeCommand w = .ok c) (s : State) :
    exec (.regWr 0x00#32 w) s = exec c.toInstr s := by
  rw [exec_regWr_cmd, execCommandWord_of_ok h, exec_toInstr]

/-- A write of an illegal word to CMD leaves code 8 and nothing else. -/
theorem exec_regWr_cmd_of_error {w : Word} {e : DecodeError} (h : decodeCommand w = .error e) (s : State) :
    exec (.regWr 0x00#32 w) s = .next { s with err := 8 } :=
  execCommandWord_of_error h s

/-- Settles O7: the command's word decodes to the command. -/
theorem commandWriteRunsItsCommand : Obligations.CommandWriteRunsItsCommand :=
  fun c => exec_regWr_cmd_of_ok (decodeCommand_encodeCommand c)

/-- Settles O8: either check makes the word illegal, and the second is made only after the first. -/
theorem illegalCommandWordOnlySetsErr : Obligations.IllegalCommandWordOnlySetsErr := by
  intro w s
  refine ⟨fun h => ?_, decodeCommand_of_rsvd_ne_zero, decodeCommand_of_nine_le_opc⟩
  obtain ⟨e, he⟩ := decodeCommand_isError.2 h
  exact exec_regWr_cmd_of_error he s

/-! ### Records (R97, R98) -/

/-- The four kinds with WE = 0. -/
theorem kind_of_read {k : BitVec 3} : k.getLsbD 0 = false → k = 0b000#3 ∨ k = 0b010#3 ∨ k = 0b100#3 ∨ k = 0b110#3 := by
  revert k
  decide

/-- The four kinds with WE = 1. -/
theorem kind_of_write {k : BitVec 3} : k.getLsbD 0 = true → k = 0b001#3 ∨ k = 0b011#3 ∨ k = 0b101#3 ∨ k = 0b111#3 := by
  revert k
  decide

/-- A read loses its datum and nothing else. -/
theorem encode_decodeRecord_of_read {t : HostBus} (h : t.kind.getLsbD 0 = false) :
    encode (decodeRecord t) = .hostBus { t with wdata := 0 } := by
  obtain ⟨k, a, v⟩ := t
  rcases kind_of_read h with rfl | rfl | rfl | rfl <;> rfl

theorem encode_decodeRecord_of_write {t : HostBus} (h : t.kind.getLsbD 0 = true) :
    encode (decodeRecord t) = .hostBus t := by
  obtain ⟨k, a, v⟩ := t
  rcases kind_of_write h with rfl | rfl | rfl | rfl <;> rfl

/-- The decoder of a read does not look at the datum. -/
theorem decodeRecord_of_read {t : HostBus} (h : t.kind.getLsbD 0 = false) (v : Word) :
    decodeRecord { t with wdata := v } = decodeRecord t := by
  obtain ⟨k, a, d⟩ := t
  rcases kind_of_read h with rfl | rfl | rfl | rfl <;> rfl

/-- Settles O4: a write is encoded as the record it was, a read as that record with datum 0. -/
theorem hostBusRecordKeepsItsFields : Obligations.HostBusRecordKeepsItsFields := by
  intro t
  cases h : t.kind.getLsbD 0 with
  | false => exact ⟨_, encode_decodeRecord_of_read h, rfl, rfl, nofun, fun v _ => decodeRecord_of_read h v⟩
  | true => exact ⟨t, encode_decodeRecord_of_write h, rfl, rfl, fun _ => rfl, nofun⟩

/-! ### Placed words (R90) -/

/-- The step of a state with a word placed runs the record that the word is delivered as. -/
theorem step_withFetchWord (s : State) (nbits w : Nat) :
    step (s.withFetchWord nbits w) = exec (decodeRecord (encodedOfNat nbits w).transaction) s :=
  step_bus rfl

/-- The record that delivers a legal encoded form has the effect of the instruction the form decodes to. -/
theorem exec_transaction {e : Encoded} {i : Instr} (h : decodeEncoded e = .ok i) (s : State) :
    exec (decodeRecord e.transaction) s = exec i s := by
  cases e with
  | hostBus t =>
    cases h
    rfl
  | cmd w =>
    cases hc : decodeCommand w with
    | error e => simp [decodeEncoded, hc] at h
    | ok c =>
      obtain rfl : c.toInstr = i := by simpa [decodeEncoded, hc] using h
      exact exec_regWr_cmd_of_ok hc s

/-- Settles O6: the step runs the delivered record, and that has the effect of the instruction decoded. -/
theorem placedWordRunsItsInstruction : Obligations.PlacedWordRunsItsInstruction := by
  intro s nbits w i h
  rw [step_withFetchWord, exec_transaction (decodeTableWord_eq_some.1 h)]

/-! ### The codes each command can leave (R95, R250) -/

theorem buildTag_err (s : State) (bs : List Byte) : (buildTag s bs).err = 0 ∨ (buildTag s bs).err = 1 := by
  rcases buildTag_cases s bs with ⟨-, h⟩ | ⟨-, h⟩ <;> rw [h]
  · exact .inl rfl
  · exact .inr rfl

/-- Settles O52: success leaves 0, and each way a command can fail its own code. -/
theorem eachCommandReportsItsOwnCodes : Obligations.EachCommandReportsItsOwnCodes := by
  refine ⟨fun c s t h => ?command, fun w e s t he h => ?illegal⟩
  case illegal =>
    cases (exec_regWr_cmd_of_error he s).symm.trans h
    rfl
  case command =>
    cases c
    case nop | crcInit =>
      cases h
      simp
    case crcFeed =>
      obtain ⟨-, rfl⟩ := execCrcFeed_next h
      simp
    case tagFromBytes =>
      cases h
      simpa using buildTag_err s _
    case tagFromText =>
      rcases execTagFromText_next h with ⟨-, rfl⟩ | ⟨-, -, rfl⟩
      · simp [ErrorKind.code]
      · rcases buildTag_err s (s.inBuf.readBytes 0 4) with e | e <;> simp [e]
    case chunkNew =>
      rcases execChunkNew_next h with ⟨-, rfl⟩ | ⟨-, -, rfl⟩ <;> simp [ErrorKind.code]
    case decode =>
      rcases execDecode_next h with ⟨-, rfl⟩ | ⟨-, -, rfl⟩ | ⟨-, -, -, rfl⟩ | ⟨-, -, -, rfl⟩ | ⟨-, -, -, -, rfl⟩ <;>
        simp [ErrorKind.code]
    case serialize =>
      rcases execSerialize_next h with ⟨-, rfl⟩ | ⟨-, -, rfl⟩ <;> simp [ErrorKind.code]
    case utf8Check =>
      rcases execUtf8Check_next h with ⟨-, rfl⟩ | ⟨-, -, ⟨-, rfl⟩ | ⟨-, rfl⟩⟩ <;> simp [ErrorKind.code]

/-! ### The run of `load` (R101) -/

/-- The record of a line decodes to the line's instruction (R100). -/
theorem decodeRecord_toBus (l : Line) : decodeRecord l.toBus = l.toInstr := by
  cases l with
  | rd | wr => rfl
  | rb b | wb b => cases b <;> rfl

/-- The events of a list of lines. -/
def busEvents (ls : List Line) : List HostEvent := ls.map fun l => .bus l.toBus

theorem transactions_load (bs : List Nat) :
    (Program.transactions [.load bs]).map HostEvent.bus = busEvents (loadLines bs) := by
  simp [Program.transactions, Pseudo.expand, busEvents]

/-- A line that writes no command reports nothing: the run goes on from the state its instruction leaves. -/
theorem runEvents_line {l : Line} {s t : State} (hl : l.toInstr.isCmdWrite = false)
    (h : exec l.toInstr { s with host := [] } = .next t) (rest : List HostEvent) :
    runEvents (.bus l.toBus :: rest) s = runEvents rest t := by
  have htake : s.take (.bus l.toBus) = .next t := by
    rw [← h, ← decodeRecord_toBus l]
    exact step_bus rfl
  simp only [runEvents, htake, HostEvent.instr, decodeRecord_toBus, Option.map_some, hl]
  cases runEvents rest t <;> rfl

/-- The line `wb IN, a, b` stores one byte (R224). -/
theorem exec_wb_inBuf {s : State} {a : Nat} (b : Byte) (ha : a < s.cfg.inCap) (hcap : s.cfg.inCap < 2 ^ 32) :
    exec (Line.wb .inBuf a b.toNat).toInstr s = .next { s with inBuf := s.inBuf.write a b } := by
  have haddr : (BitVec.ofNat 32 a).toNat = a := Nat.mod_eq_of_lt (by omega)
  have hbyte : (BitVec.ofNat 32 b.toNat).extractLsb' 0 8 = b :=
    extractLsb'_eq_of_toNat (by have := b.isLt; simp only [BitVec.toNat_ofNat]; omega)
  rcases execInWr_cases (BitVec.ofNat 32 a) (BitVec.ofNat 32 b.toNat) s with ⟨hle, -⟩ | ⟨-, e⟩
  · omega
  · rw [haddr, hbyte] at e
    exact e

/-- The line `wr IN_LEN, k` takes a length up to the capacity of IN (R222). -/
theorem exec_wr_inLen {s : State} {k : Nat} (hk : k ≤ s.cfg.inCap) (hcap : s.cfg.inCap < 2 ^ 32) :
    exec (Line.wr (.name .inLen) k).toInstr s = .next { s with inLen := BitVec.ofNat 32 k } := by
  have hval : (BitVec.ofNat 32 k).toNat = k := Nat.mod_eq_of_lt (by omega)
  exact (execRegWr_inLen _ s).trans (congrArg _ (if_neg (by omega)))

/-- The stores of a sequence of bytes are one MemWrite of it. -/
theorem runEvents_storeLines {s : State} {a : Nat} {bs : List Byte} (hle : a + bs.length ≤ s.cfg.inCap)
    (hcap : s.cfg.inCap < 2 ^ 32) (e : HostEvent) (rest : List HostEvent) :
    runEvents (busEvents (storeLines a (bs.map BitVec.toNat)) ++ e :: rest) s =
      runEvents (e :: rest) { s with inBuf := s.inBuf.writeBytes a bs } := by
  induction bs generalizing s a with
  | nil => rfl
  | cons b bs ih =>
    rw [List.length_cons] at hle
    refine (runEvents_line rfl (exec_wb_inBuf b (by simp only; omega) hcap) _).trans ?_
    exact ih (by simp only; omega) hcap

/-- The whole effect of `load`: its bytes in IN from address 0, its length in IN_LEN, no command run. -/
theorem runEvents_load {s : State} {bs : List Byte} (hle : bs.length ≤ s.cfg.inCap) (hcap : s.cfg.inCap < 2 ^ 32) :
    runEvents (busEvents (loadLines (bs.map BitVec.toNat))) s = some
      { errs := [],
        final := { s with inBuf := s.inBuf.writeBytes 0 bs, inLen := BitVec.ofNat 32 bs.length, host := [] } } := by
  have hsplit : busEvents (loadLines (bs.map BitVec.toNat)) =
      busEvents (storeLines 0 (bs.map BitVec.toNat)) ++ [.bus (Line.wr (.name .inLen) bs.length).toBus] := by
    simp [busEvents, loadLines]
  rw [hsplit, runEvents_storeLines (by omega) hcap]
  exact (runEvents_line (s := { s with inBuf := _ }) rfl (exec_wr_inLen hle hcap) []).trans rfl

/-- Settles O55: the operand read back is the sequence the stores wrote, and they reach no byte beyond it. -/
theorem loadPlacesTheOperand : Obligations.LoadPlacesTheOperand := by
  intro s bytes hcfg hwf hle
  obtain ⟨-, hmax⟩ := hcfg
  have hlen : (BitVec.ofNat 32 bytes.length).toNat = bytes.length := Nat.mod_eq_of_lt (by omega)
  refine ⟨_, (congrArg (runEvents · s) (transactions_load _)).trans (runEvents_load hle (by omega)), rfl, hlen, ?_,
    fun a ha => Memory.read_writeBytes_zero_of_le hwf ha, rfl⟩
  simp only [State.operand, hlen]
  exact Memory.readBytes_writeBytes hwf 0 bytes

end Sys2Proof.Machine

/-!
PROOFS. The type-tag family (spec/41_type_tag.md): the letter test (R110, R111), the two tag commands (R112, R113, R253), the
five properties of a tag (R114 to R119), and that a tag reads back as it was built (R120).
-/

namespace Sys2Proof.Machine

open State

/-! ### Letters (R110, R111) -/

theorem isLetter_iff {b : Byte} :
    isLetter b = true ↔ (0x41 ≤ b.toNat ∧ b.toNat ≤ 0x5A) ∨ (0x61 ≤ b.toNat ∧ b.toNat ≤ 0x7A) := by
  simp only [isLetter, Bool.or_eq_true, Bool.and_eq_true, decide_eq_true_eq]

/-- Bit 5 of a letter is its case: 0x41 to 0x5A lie within [0x40, 0x60), and 0x61 to 0x7A within [0x60, 0x80). -/
theorem getLsbD_five_of_isLetter {b : Byte} (h : isLetter b = true) : b.getLsbD 5 = decide (0x61 ≤ b.toNat) := by
  apply getLsbD_eq_of_toNat
  rcases isLetter_iff.1 h with hupper | hlower
  · rw [decide_eq_false (by omega), Bool.toNat_false]
    omega
  · rw [decide_eq_true hlower.1, Bool.toNat_true]
    omega

/-- A letter is in upper case exactly when bit 5 is 0. -/
theorem not_getLsbD_five_of_isLetter {b : Byte} (h : isLetter b = true) :
    (!b.getLsbD 5) = decide (b.toNat ≤ 0x5A) := by
  rw [getLsbD_five_of_isLetter h, ← decide_not, decide_eq_decide]
  have := isLetter_iff.1 h
  omega

theorem tagOk_four {t0 t1 t2 t3 : Byte} :
    tagOk [t0, t1, t2, t3] = true ↔
      isLetter t0 = true ∧ isLetter t1 = true ∧ isLetter t2 = true ∧ isLetter t3 = true := by
  simp only [tagOk, List.all_cons, List.all_nil, Bool.and_true, Bool.and_eq_true]

/-- Settles O12: the two ranges of R110, the block of 32 values each lies in, and one conjunct for each byte. -/
theorem tagCheckHoldsOfFourLetters : Obligations.TagCheckHoldsOfFourLetters := by
  refine ⟨fun b => ⟨isLetter_iff, fun h => ?_⟩, fun _ _ _ _ => tagOk_four⟩
  rw [getLsbD_five_of_isLetter h, decide_eq_true_eq]

/-! ### The properties of a tag (R114 to R119) -/

/-- A read of a register's offset answers what the register holds (R221). -/
theorem exec_regRd_offset (r : Reg) (s : State) : exec (.regRd r.offset) s = .next (s.answer (s.readReg r)) := by
  simp only [exec, execRegRd, regAt_offset]

theorem props_of_tagValid_eq_false {s : State} (h : s.tagValid = false) : s.props = 0 := if_pos h

theorem props_of_tagValid {s : State} (h : s.tagValid = true) :
    s.props = 0#27 ++ BitVec.ofBool (isValid s.tag) ++ BitVec.ofBool (isSafeToCopy s.tag) ++
      BitVec.ofBool (isReservedValid s.tag) ++ BitVec.ofBool (isPublic s.tag) ++ BitVec.ofBool (isCritical s.tag) :=
  if_neg (ne_false_of_eq_true h)

theorem toNat_props {s : State} (h : s.tagValid = true) :
    s.props.toNat = (isValid s.tag).toNat * 2 ^ 4 + (isSafeToCopy s.tag).toNat * 2 ^ 3 +
      (isReservedValid s.tag).toNat * 2 ^ 2 + (isPublic s.tag).toNat * 2 ^ 1 + (isCritical s.tag).toNat := by
  simp only [props_of_tagValid h, toNat_append_eq_add, BitVec.toNat_ofBool, BitVec.toNat_ofNat]
  omega

/-- The five fields of a valid tag stand at 4 to 0, each above all those to its right (R35). -/
theorem props_fields {s : State} (h : s.tagValid = true) :
    s.props.getLsbD 0 = isCritical s.tag ∧
    s.props.getLsbD 1 = isPublic s.tag ∧
    s.props.getLsbD 2 = isReservedValid s.tag ∧
    s.props.getLsbD 3 = isSafeToCopy s.tag ∧
    s.props.getLsbD 4 = isValid s.tag ∧
    s.props.extractLsb' 5 27 = 0 := by
  have hval := toNat_props h
  have hcritical := (isCritical s.tag).toNat_le
  have hpublic := (isPublic s.tag).toNat_le
  have hreserved := (isReservedValid s.tag).toNat_le
  have hsafe := (isSafeToCopy s.tag).toNat_le
  have hvalid := (isValid s.tag).toNat_le
  refine ⟨getLsbD_eq_of_toNat ?_, getLsbD_eq_of_toNat ?_, getLsbD_eq_of_toNat ?_, getLsbD_eq_of_toNat ?_,
    getLsbD_eq_of_toNat ?_, extractLsb'_eq_of_toNat ?_⟩
  case refine_6 =>
    show _ = 0
    omega
  all_goals omega

theorem isCritical_eq (tag : Word) : isCritical tag = !tag.getLsbD 29 := beq_false _

theorem isPublic_eq (tag : Word) : isPublic tag = !tag.getLsbD 21 := beq_false _

theorem isReservedValid_eq (tag : Word) : isReservedValid tag = !tag.getLsbD 13 := beq_false _

theorem isSafeToCopy_eq (tag : Word) : isSafeToCopy tag = tag.getLsbD 5 := beq_true _

/-- Settles O14: the read answers PROPS, each field is its bit of TAG, and VALID is RESERVED_VALID under another name. -/
theorem propsHoldsTheFiveProperties : Obligations.PropsHoldsTheFiveProperties := by
  intro s
  refine ⟨s.props, exec_regRd_offset .props s, props_of_tagValid_eq_false, fun h => ?_⟩
  obtain ⟨h0, h1, h2, h3, h4, hhigh⟩ := props_fields h
  exact ⟨h0.trans (isCritical_eq _), h1.trans (isPublic_eq _), h2.trans (isReservedValid_eq _),
    h3.trans (isSafeToCopy_eq _), h4.trans h2.symm, hhigh⟩

/-- PROPS bits 0 to 3 are bit 5 of tag bytes 0 to 3, inverted in the first three (R119). -/
theorem props_bits_of_bytes {s : State} (h : s.tagValid = true) :
    s.props.getLsbD 0 = (!(s.tag.extractLsb' 24 8).getLsbD 5) ∧
    s.props.getLsbD 1 = (!(s.tag.extractLsb' 16 8).getLsbD 5) ∧
    s.props.getLsbD 2 = (!(s.tag.extractLsb' 8 8).getLsbD 5) ∧
    s.props.getLsbD 3 = (s.tag.extractLsb' 0 8).getLsbD 5 := by
  obtain ⟨h0, h1, h2, h3, -, -⟩ := props_fields h
  simp only [BitVec.getLsbD_extractLsb']
  exact ⟨h0.trans (isCritical_eq _), h1.trans (isPublic_eq _), h2.trans (isReservedValid_eq _),
    h3.trans (isSafeToCopy_eq _)⟩

/-- A field of four bits, bit by bit. -/
theorem extractLsb'_zero_four_eq_iff {w : Word} {p : BitVec 4} :
    w.extractLsb' 0 4 = p ↔
      p.getLsbD 0 = w.getLsbD 0 ∧ p.getLsbD 1 = w.getLsbD 1 ∧ p.getLsbD 2 = w.getLsbD 2 ∧ p.getLsbD 3 = w.getLsbD 3 := by
  constructor
  · rintro rfl
    simp
  · rintro ⟨h0, h1, h2, h3⟩
    refine BitVec.eq_of_getLsbD_eq fun i hi => ?_
    interval_cases i <;> simp only [BitVec.getLsbD_extractLsb', h0, h1, h2, h3] <;> rfl

/-- Settles O15: each bit is the case of its own byte, and of a letter the case is its range. -/
theorem propsBitsReadDistinctTagBytes : Obligations.PropsBitsReadDistinctTagBytes := by
  refine ⟨fun s t i hi hs ht he => ?ownByte, fun s p hs hletters => ?pattern⟩
  case ownByte =>
    obtain ⟨s0, s1, s2, s3⟩ := props_bits_of_bytes hs
    obtain ⟨t0, t1, t2, t3⟩ := props_bits_of_bytes ht
    simp only [readReg]
    interval_cases i
    · rw [s0, t0, he]
    · rw [s1, t1, he]
    · rw [s2, t2, he]
    · rw [s3, t3, he]
  case pattern =>
    obtain ⟨h0, h1, h2, h3⟩ := props_bits_of_bytes hs
    obtain ⟨l0, l1, l2, l3⟩ := tagOk_four.1 hletters
    simp only [readReg]
    rw [extractLsb'_zero_four_eq_iff, h0, h1, h2, h3, not_getLsbD_five_of_isLetter l0, not_getLsbD_five_of_isLetter l1,
      not_getLsbD_five_of_isLetter l2, getLsbD_five_of_isLetter l3]

/-! ### The two tag commands (R112, R113, R253) -/

theorem buildTag_of_tagOk {s : State} {bs : List Byte} (h : tagOk bs = true) :
    buildTag s bs = { s with tag := be32 bs, tagValid := true, chunkValid := false, err := 0 } := if_pos h

theorem buildTag_of_not_tagOk {s : State} {bs : List Byte} (h : tagOk bs = false) :
    buildTag s bs = s.fail .invalidTagByte := if_neg (ne_true_of_eq_false h)

/-- Settles O16: the tag built of the bytes of ARG is ARG. -/
theorem tagFromBytesChecksArg : Obligations.TagFromBytesChecksArg := by
  refine fun s => ⟨fun h => ?_, fun h => congrArg _ (buildTag_of_not_tagOk h)⟩
  have hbuild := buildTag_of_tagOk (s := s) h
  rw [be32_beBytes] at hbuild
  exact congrArg _ hbuild

/-- The length is checked before any byte is read (R253). -/
theorem execTagFromText_of_inLen_ne_four {s : State} (h : s.inLen ≠ 4) :
    execTagFromText s = .next (s.fail .wrongTagLength) :=
  if_pos fun hn => h (BitVec.eq_of_toNat_eq hn)

theorem execTagFromText_of_inLen_eq_four {s : State} (hcap : 4 ≤ s.cfg.inCap) (h : s.inLen = 4) :
    execTagFromText s = .next (buildTag s (s.inBuf.readBytes 0 4)) := by
  have hn : ¬ s.inLen.toNat ≠ 4 := by simp [h]
  exact (if_neg hn).trans (memRead_inBuf (by omega) _)

/-- Settles O17: the length decides first, then the tag check of the four bytes of text. -/
theorem tagFromTextChecksLengthThenBytes : Obligations.TagFromTextChecksLengthThenBytes := by
  refine fun s hcap => ⟨execTagFromText_of_inLen_ne_four, fun hn ht => ?_, fun hn ht => ?_⟩
  · exact (execTagFromText_of_inLen_eq_four hcap hn).trans (congrArg _ (buildTag_of_not_tagOk ht))
  · exact (execTagFromText_of_inLen_eq_four hcap hn).trans (congrArg _ (buildTag_of_tagOk ht))

/-! ### A tag reads back until the next one is taken (R120) -/

/-- A tag command that succeeds leaves its bytes in TAG. -/
theorem buildTag_tag_of_success {s : State} {bs : List Byte} (h0 : (buildTag s bs).err = 0) :
    (buildTag s bs).tag = be32 bs := by
  rcases buildTag_cases s bs with ⟨-, h⟩ | ⟨-, h⟩
  · rw [h]
  · rw [h] at h0
    exact absurd h0 (fail_err_ne_zero s _)

theorem tag_of_execTagFromBytes_success {s t : State} (h : execTagFromBytes s = .next t) (h0 : t.err = 0) :
    t.tag = s.arg := by
  cases h
  exact (buildTag_tag_of_success h0).trans (be32_beBytes _)

theorem tag_of_execTagFromText_success {s t : State} (h : execTagFromText s = .next t) (h0 : t.err = 0) :
    t.tag = be32 (s.inBuf.readBytes 0 4) := by
  rcases execTagFromText_next h with ⟨-, rfl⟩ | ⟨-, -, rfl⟩
  · exact absurd h0 (fail_err_ne_zero s _)
  · exact buildTag_tag_of_success h0

/-- Of the nine commands only three write TAG (R34). -/
theorem runCommand_keeps_tag {c : Command} {s t : State} (hc : ¬ (c = .tagFromBytes ∨ c = .tagFromText ∨ c = .decode))
    (h : runCommand c s = .next t) : t.tag = s.tag := by
  cases c
  case tagFromBytes | tagFromText | decode => simp at hc
  case nop | crcInit =>
    cases h
    rfl
  case crcFeed =>
    obtain ⟨-, rfl⟩ := execCrcFeed_next h
    rfl
  case chunkNew => rcases execChunkNew_next h with ⟨-, rfl⟩ | ⟨-, -, rfl⟩ <;> rfl
  case serialize => rcases execSerialize_next h with ⟨-, rfl⟩ | ⟨-, -, rfl⟩ <;> rfl
  case utf8Check => rcases execUtf8Check_next h with ⟨-, rfl⟩ | ⟨-, -, ⟨-, rfl⟩ | ⟨-, rfl⟩⟩ <;> rfl

/-- Settles O18: the new tag is the command's bytes, and neither a failure, another command nor the port writes TAG. -/
theorem tagReadsBackExactly : Obligations.TagReadsBackExactly := by
  refine ⟨fun s t h h0 => ?fromBytes, fun s t h h0 => ?fromText, fun i s t h hn => ?kept⟩
  case fromBytes =>
    have htag := tag_of_execTagFromBytes_success h h0
    exact htag ▸ exec_regRd_offset .tag t
  case fromText =>
    have htag := tag_of_execTagFromText_success h h0
    refine ⟨htag ▸ exec_regRd_offset .tag t, ?_⟩
    rw [htag]
    exact tagBytes_be32 (Memory.length_readBytes ..)
  case kept =>
    rcases exec_effect h with ⟨-, e, rfl⟩ | ⟨c, hc, he⟩ | ⟨-, he⟩
    · rfl
    · have h0 : t.err = 0 := by cases he; rfl
      refine runCommand_keeps_tag (fun hw => hn ⟨h0, ?_⟩) ((exec_of_command hc s).symm.trans h)
      simpa [hc] using hw
    · cases he <;> rfl

end Sys2Proof.Machine

/-!
PROOFS. The chunk family (spec/42_chunk.md): what each of NOP, CHUNK_NEW, DECODE, SERIALIZE and UTF8_CHECK does (R141 to R145,
R149, R151, R254), which sequences are well-formed UTF-8 (R150), the round trips of a chunk (R146), and that DECODE detects one
changed byte (R195).
-/

namespace Sys2Proof.Machine

open State

/-! ### Copies and cuts of a buffer (R14, R140) -/

/-- A sequence read from one buffer and stored at address 0 of another. -/
theorem Memory.read_writeBytes_readBytes {m : Memory} (h : m.wf) (src : Memory) (a n k : Nat) :
    (m.writeBytes 0 (src.readBytes a n)).read k = if k < n then src.read (a + k) else m.read k := by
  rw [read_writeBytes h, length_readBytes, Nat.sub_zero, Nat.zero_add]
  by_cases hk : k < n
  · rw [if_pos ⟨Nat.zero_le k, hk⟩, if_pos hk, getD_readBytes src a hk]
  · rw [if_neg (fun hle => hk hle.2), if_neg hk]

theorem Memory.readBytes_writeBytes_of_length {m : Memory} (h : m.wf) (a : Nat) {bs : List Byte} {n : Nat}
    (hn : bs.length = n) : (m.writeBytes a bs).readBytes a n = bs :=
  hn ▸ readBytes_writeBytes h a bs

theorem Memory.all_readBytes {m : Memory} {a n : Nat} {P : Byte → Bool} :
    (m.readBytes a n).all P = true ↔ ∀ k, a ≤ k → k < a + n → P (m.read k) = true := by
  constructor
  · intro h k hk hkn
    obtain ⟨i, rfl⟩ := Nat.exists_eq_add_of_le hk
    have hi : i < n := by omega
    rw [← getD_readBytes m a hi, List.getD_eq_getElem _ _ (by simpa using hi)]
    exact List.all_eq_true.1 h _ (List.getElem_mem _)
  · intro h
    refine List.all_eq_true.2 fun b hb => ?_
    obtain ⟨i, hi, rfl⟩ := List.getElem_of_mem hb
    rw [length_readBytes] at hi
    rw [← List.getD_eq_getElem _ unlisted, getD_readBytes m a hi]
    exact h (a + i) (by omega) (by omega)

/-- A buffer holds a layout exactly when it holds the four parts, each at its address (R140). -/
theorem Memory.readBytes_eq_layout {m : Memory} {t p : List Byte} {len c : Word} (ht : t.length = 4)
    (hp : p.length = len.toNat) :
    m.readBytes 0 (12 + len.toNat) = layout t p c ↔
      m.readBytes 0 4 = beBytes len ∧ m.readBytes 4 4 = t ∧ m.readBytes 8 len.toNat = p ∧
        m.readBytes (8 + len.toNat) 4 = beBytes c := by
  have hcut : m.readBytes 0 (12 + len.toNat) =
      m.readBytes 0 4 ++ m.readBytes 4 4 ++ m.readBytes 8 len.toNat ++ m.readBytes (8 + len.toNat) 4 := by
    rw [show 12 + len.toNat = 4 + 4 + len.toNat + 4 by omega]
    simp only [readBytes_add, Nat.zero_add]
  have hlen : BitVec.ofNat 32 p.length = len := by rw [hp, BitVec.ofNat_toNat, BitVec.setWidth_eq]
  rw [hcut, layout, hlen]
  constructor
  · intro h
    obtain ⟨h, hsum⟩ := List.append_inj h (by simp [ht, hp])
    obtain ⟨h, hpay⟩ := List.append_inj h (by simp [ht])
    obtain ⟨hlb, htag⟩ := List.append_inj h rfl
    exact ⟨hlb, htag, hpay, hsum⟩
  · rintro ⟨hlb, htag, hpay, hsum⟩
    rw [hlb, htag, hpay, hsum]

/-- The bytes of a word read from a buffer are the bytes read (R12). -/
theorem beBytes_be32_readBytes (m : Memory) (a : Nat) : beBytes (be32 (m.readBytes a 4)) = m.readBytes a 4 :=
  tagBytes_be32 (Memory.length_readBytes ..)

@[simp] theorem length_payload (s : State) : s.payload.length = s.clen.toNat := Memory.length_readBytes ..

@[simp] theorem length_operand (s : State) : s.operand.length = s.inLen.toNat := Memory.length_readBytes ..

/-! ### NOP and CHUNK_NEW (R151, R141) -/

/-- Settles O19: NOP is the successful end of a command and nothing else. -/
theorem nopOnlyClearsErr : Obligations.NopOnlyClearsErr := fun _ => rfl

theorem execChunkNew_of_noTag {s : State} (hv : s.tagValid = false) : execChunkNew s = .next (s.fail .noTag) :=
  if_pos hv

theorem execChunkNew_of_tagValid {s : State} (hv : s.tagValid = true) (hle : s.inLen.toNat ≤ s.cfg.inCap) :
    execChunkNew s = .next { s with
      cpay := s.cpay.writeBytes 0 s.operand
      clen := s.inLen
      ccrc := crc32 (tagBytes s.tag ++ s.operand)
      chunkValid := true
      err := 0 } := by
  unfold execChunkNew
  rw [if_neg (by simp [hv]), memRead_inBuf (by omega),
    memWrite_cpay (by simp only [Memory.length_readBytes, cpayCap_eq]; omega)]
  rfl

/-- Settles O20: the payload is the operand read back, and MemWrite touches no byte beyond it. -/
theorem chunkNewBuildsTheChunk : Obligations.ChunkNewBuildsTheChunk := by
  refine fun s hle hcpay => ⟨execChunkNew_of_noTag, fun hv =>
    ⟨_, execChunkNew_of_tagValid hv hle, ?payload, ?cpay, rfl⟩⟩
  case payload => exact Memory.readBytes_writeBytes_of_length hcpay 0 (length_operand s)
  case cpay =>
    intro a
    rw [operand, Memory.read_writeBytes_readBytes hcpay, Nat.zero_add]

/-! ### DECODE (R142 to R144, R254) -/

/-- A DECODE that ends in `fail(E)` reports E, changes ERR alone and takes no chunk, whatever is asked of a chunk taken. -/
theorem decode_outcome_of_fail {s : State} {code : BitVec 4} {taken : State → Prop} {e : ErrorKind}
    (h : execDecode s = .next (s.fail e)) (hcode : code = e.code) :
    ∃ u, exec .decode s = .next u ∧ u.err = code ∧ (code ≠ 0 → u = { s with err := code }) ∧ (code = 0 → taken u) := by
  subst hcode
  exact ⟨s.fail e, h, rfl, fun _ => rfl, fun h0 => absurd h0 e.code_ne_zero⟩

/-- Settles O21: the four checks in the order of R254, and the chunk taken when all pass. -/
theorem decodeChecksInOrderThenTakesTheChunk : Obligations.DecodeChecksInOrderThenTakesTheChunk := by
  intro s hin hcpay n len t p stored code
  have hlen : (be32 (s.inBuf.readBytes 0 4)).toNat = len.toNat := rfl
  by_cases hn : n < 12
  · exact decode_outcome_of_fail (execDecode_short hn) (if_pos hn)
  cases htag : tagOk t with
  | false => exact decode_outcome_of_fail (execDecode_badTag (by omega) (by omega) htag) ((if_neg hn).trans (if_pos htag))
  | true =>
    have htag' : ¬ tagOk t = false := by simp [htag]
    by_cases hl : n < 12 + len.toNat
    · exact decode_outcome_of_fail (execDecode_truncated hin (by omega) htag (by omega))
        ((if_neg hn).trans ((if_neg htag').trans (if_pos hl)))
    by_cases hcrc : crc32 (t ++ p) ≠ stored
    · exact decode_outcome_of_fail (execDecode_mismatch (by omega) (by omega) htag hcrc)
        ((if_neg hn).trans ((if_neg htag').trans ((if_neg hl).trans (if_pos hcrc))))
    have hcode : code = 0 := (if_neg hn).trans ((if_neg htag').trans ((if_neg hl).trans (if_neg hcrc)))
    refine ⟨_, execDecode_ok rfl (by omega) (by omega) htag (not_not.1 hcrc), hcode.symm, fun h => absurd hcode h,
      fun _ => ⟨?_, ?_, rfl⟩⟩
    · exact Memory.readBytes_writeBytes_of_length hcpay 0 (Memory.length_readBytes ..)
    · exact Memory.read_writeBytes_readBytes hcpay s.inBuf 8 len.toNat

/-- A buffer holds, from address 0 on, a whole chunk that DECODE accepts: the layout of a tag of four letters, a payload and
the checksum of both (R140, R142). -/
structure HoldsChunk (m : Memory) (tag len sum : Word) (p : List Byte) : Prop where
  bytes_eq : m.readBytes 0 (12 + len.toNat) = layout (tagBytes tag) p sum
  length_eq : p.length = len.toNat
  tag_ok : tagOk (tagBytes tag) = true
  sum_eq : crc32 (tagBytes tag ++ p) = sum

/-- The four parts of a held chunk, each at its address. -/
theorem HoldsChunk.parts {m : Memory} {tag len sum : Word} {p : List Byte} (h : HoldsChunk m tag len sum p) :
    m.readBytes 0 4 = beBytes len ∧ m.readBytes 4 4 = tagBytes tag ∧ m.readBytes 8 len.toNat = p ∧
      m.readBytes (8 + len.toNat) 4 = beBytes sum :=
  (Memory.readBytes_eq_layout (length_tagBytes tag) h.length_eq).1 h.bytes_eq

/-- Bytes from 12 + L on are no part of the chunk held (R144). -/
theorem HoldsChunk.of_read_eq {m m' : Memory} {tag len sum : Word} {p : List Byte} (h : HoldsChunk m tag len sum p)
    (hm : ∀ a, a < 12 + len.toNat → m'.read a = m.read a) : HoldsChunk m' tag len sum p :=
  { h with bytes_eq := (Memory.readBytes_congr fun a _ ha => hm a (by omega)).trans h.bytes_eq }

/-- The state with a decoded chunk taken (R142). -/
def State.takeChunk (s : State) (tag len sum : Word) (p : List Byte) : State :=
  { s with
    cpay := s.cpay.writeBytes 0 p, tag := tag, tagValid := true, clen := len, ccrc := sum, chunkValid := true, err := 0 }

theorem payload_takeChunk {s : State} (h : s.cpay.wf) (tag sum : Word) {len : Word} {p : List Byte}
    (hp : p.length = len.toNat) : (s.takeChunk tag len sum p).payload = p :=
  Memory.readBytes_writeBytes_of_length h 0 hp

/-- DECODE takes the chunk that IN holds, whatever IN_LEN counts beyond it (R142, R144). -/
theorem execDecode_of_holdsChunk {s : State} {tag len sum : Word} {p : List Byte} (h : HoldsChunk s.inBuf tag len sum p)
    (hn : 12 + len.toNat ≤ s.inLen.toNat) (hcap : 12 + len.toNat ≤ s.cfg.inCap) :
    execDecode s = .next (s.takeChunk tag len sum p) := by
  obtain ⟨hlen, htag, hpay, hsum⟩ := h.parts
  have hd := execDecode_ok (s := s) (l := len.toNat) (by rw [hlen, be32_beBytes]) (by omega) (by omega)
    (by rw [htag]; exact h.tag_ok) (by rw [htag, hpay, hsum, be32_beBytes]; exact h.sum_eq)
  rw [hlen, htag, hpay, hsum, be32_beBytes, be32_beBytes, tagBytes, be32_beBytes] at hd
  exact hd

/-- A successful DECODE took a chunk that IN holds within its first IN_LEN bytes (R142). -/
theorem holdsChunk_of_execDecode {s t : State} (h : execDecode s = .next t) (h0 : t.err = 0) :
    ∃ p, HoldsChunk s.inBuf t.tag t.clen t.ccrc p ∧ 12 + t.clen.toNat ≤ s.inLen.toNat ∧
      12 + t.clen.toNat ≤ s.cfg.inCap ∧ t = s.takeChunk t.tag t.clen t.ccrc p := by
  obtain ⟨hclen, hn, hcap, htag, hcrc, ht⟩ := execDecode_success h h0
  have htw : t.tag = be32 (s.inBuf.readBytes 4 4) := congrArg State.tag ht
  have htb : tagBytes t.tag = s.inBuf.readBytes 4 4 := htw ▸ beBytes_be32_readBytes s.inBuf 4
  have hsum : t.ccrc = be32 (s.inBuf.readBytes (8 + t.clen.toNat) 4) := congrArg State.ccrc ht
  have hp : (s.inBuf.readBytes 8 t.clen.toNat).length = t.clen.toNat := Memory.length_readBytes ..
  refine ⟨s.inBuf.readBytes 8 t.clen.toNat, ⟨?bytes, hp, ?tag, ?sum⟩, by omega, by omega, ?taken⟩
  case bytes =>
    refine (Memory.readBytes_eq_layout (length_tagBytes _) hp).2 ⟨?_, htb.symm, rfl, ?_⟩
    · rw [hclen, beBytes_be32_readBytes]
    · rw [hsum, beBytes_be32_readBytes]
  case tag => rw [htb, htag]
  case sum => rw [htb, hsum, hcrc]
  case taken =>
    rw [← htw, ← hclen, ← hsum] at ht
    exact ht

/-- Settles O22: neither a longer IN_LEN nor other bytes from 12 + L on touch the chunk that IN holds. -/
theorem decodeIgnoresTrailingBytes : Obligations.DecodeIgnoresTrailingBytes := by
  intro s t h h0
  obtain ⟨p, hheld, hn, hcap, ht⟩ := holdsChunk_of_execDecode h h0
  refine ⟨fun n hlo _ => ?inLen, fun m hm => ?inBuf⟩
  case inLen =>
    have hd := execDecode_of_holdsChunk (s := { s with inLen := n }) hheld hlo hcap
    exact hd.trans (congrArg (fun u : State => Host.Outcome.next { u with inLen := n }) ht.symm)
  case inBuf =>
    have hd := execDecode_of_holdsChunk (s := { s with inBuf := m }) (hheld.of_read_eq hm) hn hcap
    exact hd.trans (congrArg (fun u : State => Host.Outcome.next { u with inBuf := m }) ht.symm)

/-! ### SERIALIZE (R145) -/

theorem execSerialize_of_noChunk {s : State} (hv : s.chunkValid = false) :
    execSerialize s = .next (s.fail .noChunk) := if_pos hv

theorem execSerialize_of_chunkValid {s : State} (hv : s.chunkValid = true) (hle : s.clen.toNat ≤ s.cfg.cpayCap) :
    execSerialize s = .next { s with
      out := s.out.writeBytes 0 (layout (tagBytes s.tag) s.payload s.ccrc)
      outLen := BitVec.ofNat 32 (12 + s.clen.toNat)
      err := 0 } := by
  have hlayout : layout (tagBytes s.tag) s.payload s.ccrc =
      beBytes s.clen ++ tagBytes s.tag ++ s.cpay.readBytes 0 s.clen.toNat ++ beBytes s.ccrc := by
    rw [layout, length_payload, BitVec.ofNat_toNat, BitVec.setWidth_eq]
    rfl
  rw [hlayout]
  rw [cpayCap_eq] at hle
  unfold execSerialize
  rw [if_neg (by simp [hv]), memRead_cpay (by rw [cpayCap_eq]; omega), memWrite_out (by simp [outCap_eq]; omega)]
  rfl

/-- Settles O23: the layout is read back from address 0, OUT beyond it is kept, and 12 + CLEN does not wrap (R5). -/
theorem serializeWritesTheLayout : Obligations.SerializeWritesTheLayout := by
  refine fun s hcfg hout => ⟨execSerialize_of_noChunk, fun hv hle =>
    ⟨_, execSerialize_of_chunkValid hv hle, ?outLen, ?layout, fun a ha => ?beyond, rfl⟩⟩
  all_goals have hlen : (layout (tagBytes s.tag) s.payload s.ccrc).length = 12 + s.clen.toNat := by simp; omega
  case outLen =>
    obtain ⟨-, hmax⟩ := hcfg
    rw [cpayCap_eq] at hle
    exact Nat.mod_eq_of_lt (by omega)
  case layout => exact Memory.readBytes_writeBytes_of_length hout 0 hlen
  case beyond => exact Memory.read_writeBytes_zero_of_le hout (hlen.trans_le ha)

/-! ### UTF8_CHECK (R149, R255) -/

/-- Settles O24: the payload is judged only when a chunk is live. -/
theorem utf8CheckReportsThePayload : Obligations.Utf8CheckReportsThePayload := by
  refine fun s => ⟨fun hv => if_pos hv, fun hv hle => ?_⟩
  show execUtf8Check s = _
  unfold execUtf8Check
  rw [if_neg (by simp [hv]), memRead_cpay (by omega)]
  show (if utf8WellFormed s.payload = false then _ else _) = _
  cases utf8WellFormed s.payload <;> rfl

/-! ### Well-formed UTF-8 (R150) -/

/-- A group of R150: its bytes match a row of the table. -/
def IsUtf8Group (g : List Byte) : Prop := ∃ row ∈ utf8Rows, matchesRow row g = true

theorem ByteRange.has_iff {r : ByteRange} {b : Byte} : r.has b = true ↔ r.lo ≤ b.toNat ∧ b.toNat ≤ r.hi := by
  simp only [ByteRange.has, Bool.and_eq_true, decide_eq_true_eq]

/-- Two rows of the table have the same range of first bytes or no first byte in common. -/
theorem utf8Rows_disjoint :
    ∀ row ∈ utf8Rows, ∀ row' ∈ utf8Rows, ∀ r ∈ row.head?, ∀ r' ∈ row'.head?,
      row = row' ∨ r.hi < r'.lo ∨ r'.hi < r.lo := by
  decide

theorem nil_notMem_utf8Rows : [] ∉ utf8Rows := by decide

/-- The first byte of a group fixes its row (R150). -/
theorem utf8Row_unique {r r' : ByteRange} {rs rs' : List ByteRange} {b : Byte} (h : r :: rs ∈ utf8Rows)
    (h' : r' :: rs' ∈ utf8Rows) (hb : r.has b = true) (hb' : r'.has b = true) : r :: rs = r' :: rs' := by
  have := ByteRange.has_iff.1 hb
  have := ByteRange.has_iff.1 hb'
  exact (utf8Rows_disjoint _ h _ h' r rfl r' rfl).resolve_right (by omega)

/-- A first byte asks for the rest of its row. -/
theorem utf8Tail_eq_some {b : Byte} {rs : List ByteRange} :
    utf8Tail b = some rs ↔ ∃ r, r :: rs ∈ utf8Rows ∧ r.has b = true := by
  unfold utf8Tail
  cases hf : utf8Rows.find? (fun row => (row.take 1).all (·.has b)) with
  | none =>
    simp only [reduceCtorEq, false_iff, not_exists, not_and]
    intro r hr hb
    have := List.find?_eq_none.1 hf _ hr
    simp [hb] at this
  | some row =>
    have hmem := List.mem_of_find?_eq_some hf
    have hhas := List.find?_some hf
    cases row with
    | nil => exact absurd hmem nil_notMem_utf8Rows
    | cons r rs' =>
      have hb : r.has b = true := by simpa using hhas
      simp only [List.drop_one, List.tail_cons, Option.some.injEq]
      constructor
      · rintro rfl
        exact ⟨r, hmem, hb⟩
      · rintro ⟨r', hmem', hb'⟩
        exact (List.cons.inj (utf8Row_unique hmem hmem' hb hb')).2

/-- A sequence is well formed exactly when its first byte starts a row and the rest goes on with that row. -/
theorem utf8WellFormed_cons {b : Byte} {bs : List Byte} :
    utf8WellFormed (b :: bs) = true ↔ ∃ r rs, r :: rs ∈ utf8Rows ∧ r.has b = true ∧ utf8Scan rs bs = true := by
  have hscan : utf8WellFormed (b :: bs) = true ↔ ∃ rs, utf8Tail b = some rs ∧ utf8Scan rs bs = true := by
    rw [utf8WellFormed, utf8Scan]
    cases utf8Tail b <;> simp
  rw [hscan]
  simp only [utf8Tail_eq_some]
  constructor
  · rintro ⟨rs, ⟨r, hmem, hb⟩, hs⟩
    exact ⟨r, rs, hmem, hb, hs⟩
  · rintro ⟨r, rs, hmem, hb, hs⟩
    exact ⟨rs, ⟨r, hmem, hb⟩, hs⟩

/-- The scan with ranges pending: a part that matches them, then a well-formed rest. -/
theorem utf8Scan_iff {rs : List ByteRange} {p : List Byte} :
    utf8Scan rs p = true ↔ ∃ g rest, p = g ++ rest ∧ matchesRow rs g = true ∧ utf8WellFormed rest = true := by
  induction rs generalizing p with
  | nil =>
    constructor
    · exact fun h => ⟨[], p, rfl, rfl, h⟩
    · rintro ⟨g, rest, rfl, hg, hrest⟩
      cases g with
      | nil => exact hrest
      | cons => cases hg
  | cons r rs ih =>
    cases p with
    | nil =>
      constructor
      · intro h
        cases h
      · rintro ⟨g, rest, hp, hg, -⟩
        obtain ⟨rfl, -⟩ := List.nil_eq_append_iff.1 hp
        cases hg
    | cons b bs =>
      rw [utf8Scan, Bool.and_eq_true, ih]
      constructor
      · rintro ⟨hb, g, rest, rfl, hg, hrest⟩
        exact ⟨b :: g, rest, rfl, by rw [matchesRow, hb, hg]; rfl, hrest⟩
      · rintro ⟨g, rest, hp, hg, hrest⟩
        cases g with
        | nil => cases hg
        | cons b' g =>
          obtain ⟨rfl, rfl⟩ := List.cons.inj hp
          obtain ⟨hb, hg⟩ := Bool.and_eq_true_iff.1 hg
          exact ⟨hb, g, rest, rfl, hg, hrest⟩

/-- A group has a first byte, and that byte's row is the one it matches. -/
theorem IsUtf8Group.exists_cons {g : List Byte} (h : IsUtf8Group g) :
    ∃ b bs r rs, g = b :: bs ∧ r :: rs ∈ utf8Rows ∧ r.has b = true ∧ matchesRow rs bs = true := by
  obtain ⟨row, hrow, hm⟩ := h
  cases row with
  | nil => exact absurd hrow nil_notMem_utf8Rows
  | cons r rs =>
    cases g with
    | nil => cases hm
    | cons b bs =>
      obtain ⟨hb, hbs⟩ := Bool.and_eq_true_iff.1 hm
      exact ⟨b, bs, r, rs, rfl, hrow, hb, hbs⟩

theorem utf8WellFormed_append_of_group {g rest : List Byte} (hg : IsUtf8Group g) (hrest : utf8WellFormed rest = true) :
    utf8WellFormed (g ++ rest) = true := by
  obtain ⟨b, bs, r, rs, rfl, hrow, hb, hbs⟩ := hg.exists_cons
  exact utf8WellFormed_cons.2 ⟨r, rs, hrow, hb, utf8Scan_iff.2 ⟨bs, rest, rfl, hbs, hrest⟩⟩

/-- A well-formed sequence that is not empty starts with a group. -/
theorem exists_group_of_utf8WellFormed_cons {b : Byte} {bs : List Byte} (h : utf8WellFormed (b :: bs) = true) :
    ∃ g rest, bs = g ++ rest ∧ IsUtf8Group (b :: g) ∧ utf8WellFormed rest = true := by
  obtain ⟨r, rs, hrow, hb, hs⟩ := utf8WellFormed_cons.1 h
  obtain ⟨g, rest, rfl, hg, hrest⟩ := utf8Scan_iff.1 hs
  exact ⟨g, rest, rfl, ⟨r :: rs, hrow, Bool.and_eq_true_iff.2 ⟨hb, hg⟩⟩, hrest⟩

theorem exists_groups_of_utf8WellFormed (p : List Byte) (h : utf8WellFormed p = true) :
    ∃ groups : List (List Byte), p = groups.flatten ∧ ∀ g ∈ groups, IsUtf8Group g := by
  match p with
  | [] => exact ⟨[], rfl, by simp⟩
  | b :: bs =>
    obtain ⟨g, rest, hbs, hg, hrest⟩ := exists_group_of_utf8WellFormed_cons h
    obtain ⟨groups, rfl, hgs⟩ := exists_groups_of_utf8WellFormed rest hrest
    exact ⟨(b :: g) :: groups, by rw [hbs]; rfl, List.forall_mem_cons.2 ⟨hg, hgs⟩⟩
termination_by p.length
decreasing_by
  rw [hbs]
  simp

theorem utf8WellFormed_flatten {groups : List (List Byte)} (h : ∀ g ∈ groups, IsUtf8Group g) :
    utf8WellFormed groups.flatten = true := by
  induction groups with
  | nil => rfl
  | cons g gs ih =>
    obtain ⟨hg, hgs⟩ := List.forall_mem_cons.1 h
    exact utf8WellFormed_append_of_group hg (ih hgs)

theorem matchesRow_length {row : List ByteRange} {g : List Byte} (h : matchesRow row g = true) : g.length = row.length := by
  induction row generalizing g with
  | nil =>
    cases g with
    | nil => rfl
    | cons => cases h
  | cons r rs ih =>
    cases g with
    | nil => cases h
    | cons b bs => exact congrArg (· + 1) (ih (Bool.and_eq_true_iff.1 h).2)

/-- Two groups that start with the same byte have the same length, so a sequence starts with one group at most. -/
theorem IsUtf8Group.append_inj {g g' rest rest' : List Byte} (h : IsUtf8Group g) (h' : IsUtf8Group g')
    (he : g ++ rest = g' ++ rest') : g = g' ∧ rest = rest' := by
  obtain ⟨b, bs, r, rs, rfl, hrow, hb, hbs⟩ := h.exists_cons
  obtain ⟨b', bs', r', rs', rfl, hrow', hb', hbs'⟩ := h'.exists_cons
  obtain ⟨rfl, -⟩ := List.cons.inj he
  obtain ⟨-, rfl⟩ := List.cons.inj (utf8Row_unique hrow hrow' hb hb')
  exact List.append_inj he (congrArg (· + 1) ((matchesRow_length hbs).trans (matchesRow_length hbs').symm))

theorem groups_eq_of_flatten_eq {gs hs : List (List Byte)} (hg : ∀ g ∈ gs, IsUtf8Group g)
    (hh : ∀ h ∈ hs, IsUtf8Group h) (he : gs.flatten = hs.flatten) : gs = hs := by
  induction gs generalizing hs with
  | nil =>
    cases hs with
    | nil => rfl
    | cons h hs =>
      obtain ⟨b, bs, _, _, rfl, -⟩ := (List.forall_mem_cons.1 hh).1.exists_cons
      cases he
  | cons g gs ih =>
    obtain ⟨hg, hgs⟩ := List.forall_mem_cons.1 hg
    cases hs with
    | nil =>
      obtain ⟨b, bs, _, _, rfl, -⟩ := hg.exists_cons
      cases he
    | cons h hs =>
      obtain ⟨hh, hhs⟩ := List.forall_mem_cons.1 hh
      obtain ⟨hgh, htail⟩ := hg.append_inj hh he
      rw [hgh, ih hgs hhs htail]

/-- Settles O25: group by group from the start, and the first byte of each fixes where it ends. -/
theorem utf8ScanHoldsOfSplitSequences : Obligations.Utf8ScanHoldsOfSplitSequences := by
  refine ⟨fun p => ⟨exists_groups_of_utf8WellFormed p, ?_⟩, fun gs hs => groups_eq_of_flatten_eq⟩
  rintro ⟨groups, rfl, hg⟩
  exact utf8WellFormed_flatten hg

/-- The nine ways a well-formed sequence can start, one for each row of the table. -/
theorem utf8WellFormed_cons_iff {b : Byte} {bs : List Byte} : utf8WellFormed (b :: bs) = true ↔
    (b.toNat ≤ 0x7F ∧ utf8Scan [] bs = true) ∨
    ((0xC2 ≤ b.toNat ∧ b.toNat ≤ 0xDF) ∧ utf8Scan [⟨0x80, 0xBF⟩] bs = true) ∨
    ((0xE0 ≤ b.toNat ∧ b.toNat ≤ 0xE0) ∧ utf8Scan [⟨0xA0, 0xBF⟩, ⟨0x80, 0xBF⟩] bs = true) ∨
    ((0xE1 ≤ b.toNat ∧ b.toNat ≤ 0xEC) ∧ utf8Scan [⟨0x80, 0xBF⟩, ⟨0x80, 0xBF⟩] bs = true) ∨
    ((0xED ≤ b.toNat ∧ b.toNat ≤ 0xED) ∧ utf8Scan [⟨0x80, 0x9F⟩, ⟨0x80, 0xBF⟩] bs = true) ∨
    ((0xEE ≤ b.toNat ∧ b.toNat ≤ 0xEF) ∧ utf8Scan [⟨0x80, 0xBF⟩, ⟨0x80, 0xBF⟩] bs = true) ∨
    ((0xF0 ≤ b.toNat ∧ b.toNat ≤ 0xF0) ∧ utf8Scan [⟨0x90, 0xBF⟩, ⟨0x80, 0xBF⟩, ⟨0x80, 0xBF⟩] bs = true) ∨
    ((0xF1 ≤ b.toNat ∧ b.toNat ≤ 0xF3) ∧ utf8Scan [⟨0x80, 0xBF⟩, ⟨0x80, 0xBF⟩, ⟨0x80, 0xBF⟩] bs = true) ∨
    ((0xF4 ≤ b.toNat ∧ b.toNat ≤ 0xF4) ∧ utf8Scan [⟨0x80, 0x8F⟩, ⟨0x80, 0xBF⟩, ⟨0x80, 0xBF⟩] bs = true) := by
  rw [utf8WellFormed_cons]
  simp only [utf8Rows, List.mem_cons, List.cons.injEq, List.not_mem_nil, or_false, or_and_right, exists_or, and_assoc,
    exists_and_left, exists_eq_left, ByteRange.has_iff, Nat.zero_le, true_and]

/-- An ASCII byte is a group of its own. -/
theorem utf8WellFormed_cons_of_ascii {b : Byte} (h : b.toNat ≤ 0x7F) (bs : List Byte) :
    utf8WellFormed (b :: bs) = utf8WellFormed bs := by
  have htail : utf8Tail b = some [] := utf8Tail_eq_some.2 ⟨⟨0x00, 0x7F⟩, by decide, ByteRange.has_iff.2 ⟨Nat.zero_le _, h⟩⟩
  rw [utf8WellFormed, utf8Scan, htail, utf8WellFormed]

/-- Settles O26: none of the nine rows admits the bytes named, and a group cut short leaves ranges pending. -/
theorem utf8RejectsIllFormedStarts : Obligations.Utf8RejectsIllFormedStarts := by
  intro b c d rest
  simp only [← Bool.not_eq_true, utf8WellFormed_cons_iff, utf8Scan, Bool.and_eq_true, ByteRange.has_iff, Bool.false_eq_true,
    and_false, or_false]
  refine ⟨?_, ?_, ?_, ?_, ?_, ?_, ?_, ?_, ?_, fun h => utf8WellFormed_cons_of_ascii h rest⟩
  all_goals omega

/-! ### The checksum of one changed byte (R190, R195) -/

/-- A shift moves the bit it takes out into bit 31, which is the top bit of the polynomial. -/
theorem getLsbD_crcBit (c : Word) : (crcBit c).getLsbD 31 = c.getLsbD 0 := by
  unfold crcBit
  cases h : c.getLsbD 0 <;> simp [polyReflected]

theorem crcBit_injective : Function.Injective crcBit := by
  intro c d h
  have h0 : c.getLsbD 0 = d.getLsbD 0 := by rw [← getLsbD_crcBit, h, getLsbD_crcBit]
  have hshift : c >>> 1 = d >>> 1 := by
    unfold crcBit at h
    rw [h0] at h
    split at h
    · exact (BitVec.xor_left_inj _).1 h
    · exact h
  apply BitVec.eq_of_getLsbD_eq
  intro i hi
  cases i with
  | zero => exact h0
  | succ i => simpa [BitVec.getLsbD_ushiftRight, Nat.add_comm] using congrArg (BitVec.getLsbD · i) hshift

theorem crcBits_injective (n : Nat) : Function.Injective (crcBits n) := by
  induction n with
  | zero => exact Function.injective_id
  | succ n ih => exact ih.comp crcBit_injective

/-- A byte takes different registers to different registers. -/
theorem crcByte_injective_left (b : Byte) : Function.Injective (crcByte · b) :=
  (crcBits_injective 8).comp fun _ _ h => (BitVec.xor_left_inj _).1 h

/-- Different bytes take a register to different registers. -/
theorem crcByte_injective_right (c : Word) : Function.Injective (crcByte c) := by
  intro x y h
  have hx := congrArg BitVec.toNat ((BitVec.xor_right_inj _).1 (crcBits_injective 8 h))
  apply BitVec.eq_of_toNat_eq
  rw [BitVec.toNat_setWidth, BitVec.toNat_setWidth] at hx
  omega

theorem crcUpdate_append (c : Word) (s u : List Byte) : crcUpdate c (s ++ u) = crcUpdate (crcUpdate c s) u := by
  induction s generalizing c with
  | nil => rfl
  | cons b s ih => exact ih (crcByte c b)

theorem crcUpdate_injective (s : List Byte) : Function.Injective (crcUpdate · s) := by
  induction s with
  | nil => exact Function.injective_id
  | cons b s ih => exact ih.comp (crcByte_injective_left b)

/-- One changed byte, wherever it stands, changes the checksum: the registers differ from that byte on (R195). -/
theorem crc32_ne_of_byte_ne (pre post : List Byte) {x y : Byte} (h : x ≠ y) :
    crc32 (pre ++ x :: post) ≠ crc32 (pre ++ y :: post) := by
  intro he
  have hreg := (BitVec.xor_left_inj _).1 he
  rw [crcUpdate_append, crcUpdate_append] at hreg
  exact h (crcByte_injective_right _ (crcUpdate_injective post hreg))

/-! ### The round trips (R146) -/

/-- A chunk copied to another buffer is held there. -/
theorem HoldsChunk.copy {m m' : Memory} {tag len sum : Word} {p : List Byte} (h : HoldsChunk m tag len sum p)
    (hwf : m'.wf) : HoldsChunk (m'.writeBytes 0 (m.readBytes 0 (12 + len.toNat))) tag len sum p :=
  h.of_read_eq fun a ha => by rw [Memory.read_writeBytes_readBytes hwf, if_pos ha, Nat.zero_add]

/-- SERIALIZE leaves in OUT a chunk that DECODE accepts, when the live chunk is as the invariant says (R43, R44, R145). -/
theorem execSerialize_holdsChunk {s : State} (hs : s.Inv) (hv : s.chunkValid = true) :
    ∃ t, execSerialize s = .next t ∧ t.err = 0 ∧ t.cfg = s.cfg ∧ t.outLen.toNat = 12 + s.clen.toNat ∧
      HoldsChunk t.out s.tag s.clen s.ccrc s.payload := by
  obtain ⟨t, ht, hlen, hbytes, -, he⟩ := (serializeWritesTheLayout s hs.cfg_ok (hs.bufs_ok .out).1).2 hv (hs.chunk_len hv)
  exact ⟨t, ht, by rw [he], by rw [he], hlen,
    ⟨hbytes, length_payload s, hs.tag_ok (hs.chunk_tag hv), (hs.chunk_crc hv).symm⟩⟩

/-- Settles O27: the chunk SERIALIZE leaves in OUT is held by IN after the copy, and DECODE takes it. -/
theorem decodeOfSerializeGivesTheChunk : Obligations.DecodeOfSerializeGivesTheChunk := by
  intro s hs hv hfit
  obtain ⟨t, ht, -, hcfg, hlen, hheld⟩ := execSerialize_holdsChunk hs hv
  have hbufs := (hs.afterSerialize ht).bufs_ok
  have hd := execDecode_of_holdsChunk
    (s := { t with inBuf := t.inBuf.writeBytes 0 (t.out.readBytes 0 t.outLen.toNat), inLen := t.outLen })
    (hlen ▸ hheld.copy (hbufs .inBuf).1) hlen.ge (hcfg ▸ hfit)
  exact ⟨t, _, ht, hd, rfl, rfl, rfl, rfl, rfl, rfl, payload_takeChunk (hbufs .cpay).1 s.tag s.ccrc hheld.length_eq⟩

/-- Settles O28: what SERIALIZE writes and what DECODE consumed are the layout of one chunk. -/
theorem serializeOfDecodeGivesTheConsumedPrefix : Obligations.SerializeOfDecodeGivesTheConsumedPrefix := by
  intro s t hs h h0
  obtain ⟨p, hheld, -, -, ht⟩ := holdsChunk_of_execDecode h h0
  have hp : t.payload = p := by
    rw [ht]
    exact payload_takeChunk (hs.bufs_ok .cpay).1 _ _ hheld.length_eq
  obtain ⟨u, hu, hu0, -, hlen, hout⟩ := execSerialize_holdsChunk (hs.afterDecode h) (congrArg State.chunkValid ht)
  rw [hp] at hout
  exact ⟨u, hu, hu0, hlen, hout.bytes_eq.trans hheld.bytes_eq.symm⟩

/-- Settles O29: CHUNK_NEW keeps the invariant, and the chunk it makes live survives as every live chunk does. -/
theorem builtChunkSurvivesTheRoundTrip : Obligations.BuiltChunkSurvivesTheRoundTrip := by
  intro s hs hv hle
  have ht := execChunkNew_of_tagValid hv hs.inLen_le
  have hfit : 12 + s.inLen.toNat ≤ s.cfg.inCap := by
    obtain ⟨hmin, -⟩ := hs.cfg_ok
    omega
  obtain ⟨u, v, hu, hd, h0, -, hcv, htag, hlen, hsum, hpay⟩ :=
    decodeOfSerializeGivesTheChunk _ (hs.afterChunkNew ht) rfl hfit
  have hoperand := Memory.readBytes_writeBytes_of_length (hs.bufs_ok .cpay).1 0 (length_operand s)
  exact ⟨_, u, v, ht, hu, hd, h0, hcv, htag, hlen, hpay.trans hoperand, hsum⟩

/-! ### One changed byte (R195, R254) -/

/-- A stored byte changes no sequence that does not reach it. -/
theorem Memory.readBytes_write_of_outside {m : Memory} (h : m.wf) {a k n : Nat} (b : Byte) (ha : a < k ∨ k + n ≤ a) :
    (m.write a b).readBytes k n = m.readBytes k n :=
  readBytes_congr fun i _ _ => by rw [read_write h, if_neg (by omega)]

/-- A different byte anywhere in a sequence changes the sequence's checksum. -/
theorem crc32_readBytes_write_ne {m : Memory} (h : m.wf) {a k n : Nat} {b : Byte} (hb : b ≠ m.read a) (hk : k ≤ a)
    (hn : a < k + n) : crc32 ((m.write a b).readBytes k n) ≠ crc32 (m.readBytes k n) := by
  obtain ⟨i, rfl⟩ := Nat.exists_eq_add_of_le hk
  obtain ⟨j, rfl⟩ : ∃ j, n = i + (j + 1) := ⟨n - i - 1, by omega⟩
  rw [Memory.readBytes_add _ k i, Memory.readBytes_add _ k i, Memory.readBytes, Memory.readBytes,
    Memory.readBytes_write_of_outside h b (.inr le_rfl),
    Memory.readBytes_write_of_outside h b (.inl (Nat.lt_succ_self _)), Memory.read_write h, if_pos rfl]
  exact crc32_ne_of_byte_ne _ _ hb

/-- With one byte of a good tag changed, the tag check turns on that byte alone (R111). -/
theorem tagOk_readBytes_write {m : Memory} (h : m.wf) {a : Nat} (b : Byte) (ht : tagOk (m.readBytes 4 4) = true)
    (ha : 4 ≤ a) (ha' : a < 8) : tagOk ((m.write a b).readBytes 4 4) = isLetter b := by
  rw [Bool.eq_iff_iff, tagOk, Memory.all_readBytes]
  constructor
  · intro hall
    simpa [Memory.read_write h] using hall a ha ha'
  · intro hb k hk hk'
    rw [Memory.read_write h]
    split
    · exact hb
    · exact Memory.all_readBytes.1 ht k hk hk'

/-- A changed tag or payload byte leaves the length field of a held chunk as it was. -/
theorem HoldsChunk.be32_length_write {m : Memory} {tag len sum : Word} {p : List Byte} (h : HoldsChunk m tag len sum p)
    (hwf : m.wf) {a : Nat} (ha : 4 ≤ a) (b : Byte) : be32 ((m.write a b).readBytes 0 4) = len := by
  obtain ⟨hlen, -⟩ := h.parts
  rw [Memory.readBytes_write_of_outside hwf b (.inr ha), hlen, be32_beBytes]

/-- A changed tag or payload byte of a held chunk no longer goes with the stored checksum, which is as it was. -/
theorem HoldsChunk.crc32_write_ne {m : Memory} {tag len sum : Word} {p : List Byte} (h : HoldsChunk m tag len sum p)
    (hwf : m.wf) {a : Nat} {b : Byte} (ha : 4 ≤ a) (ha' : a < 8 + len.toNat) (hb : b ≠ m.read a) :
    crc32 ((m.write a b).readBytes 4 4 ++ (m.write a b).readBytes 8 len.toNat) ≠
      be32 ((m.write a b).readBytes (8 + len.toNat) 4) := by
  obtain ⟨-, htag, hpay, hsum⟩ := h.parts
  have hstored : be32 ((m.write a b).readBytes (8 + len.toNat) 4) = crc32 (m.readBytes 4 (4 + len.toNat)) := by
    rw [Memory.readBytes_write_of_outside hwf b (.inl ha'), hsum, be32_beBytes, Memory.readBytes_add, htag, hpay, h.sum_eq]
  rw [hstored, ← Memory.readBytes_add _ 4 4]
  exact crc32_readBytes_write_ne hwf hb ha (by omega)

/-- Settles O35: length and stored checksum are as they were, so the changed byte fails the tag check or the checksum. -/
theorem corruptedChunkNeverDecodes : Obligations.CorruptedChunkNeverDecodes := by
  intro s t a b hwf h h0 ha hau hb
  obtain ⟨p, hheld, hn, hcap, -⟩ := holdsChunk_of_execDecode h h0
  obtain ⟨-, htag, -, -⟩ := hheld.parts
  have htagOk : tagOk (s.inBuf.readBytes 4 4) = true := htag ▸ hheld.tag_ok
  have hlen := hheld.be32_length_write hwf ha b
  have mismatch (ht : tagOk ((s.inBuf.write a b).readBytes 4 4) = true) :
      execDecode { s with inBuf := s.inBuf.write a b } =
        .next (State.fail { s with inBuf := s.inBuf.write a b } .checksumMismatch) :=
    execDecode_mismatch (by rw [hlen, Nat.add_comm]; exact hn) (by rw [hlen, Nat.add_comm]; exact hcap) ht
      (by rw [hlen]; exact hheld.crc32_write_ne hwf ha hau hb)
  by_cases ha8 : 8 ≤ a
  · rw [Memory.readBytes_write_of_outside hwf b (.inr ha8)] at mismatch
    exact ⟨4, mismatch htagOk, fun _ => rfl, fun h8 => absurd ha8 (by omega)⟩
  have hletter := tagOk_readBytes_write hwf b htagOk ha (by omega)
  cases hb' : isLetter b with
  | true => exact ⟨4, mismatch (hletter.trans hb'), fun _ => rfl, fun _ => .inl ⟨rfl, rfl⟩⟩
  | false =>
    have hbad := execDecode_badTag (s := { s with inBuf := s.inBuf.write a b }) (by show 8 ≤ s.cfg.inCap; omega)
      (by show 12 ≤ s.inLen.toNat; omega) (hletter.trans hb')
    exact ⟨1, hbad, fun h8 => absurd h8 ha8, fun _ => .inr ⟨rfl, rfl⟩⟩

end Sys2Proof.Machine

/-!
PROOFS. The CRC-32 family (spec/43_crc32.md): parameters and check value (R190, R193), the table form of the byte step
(R194), the laws of the register update (R195), CRC_INIT and CRC_FEED (R196, R197), and the streaming checksum of a chunk (R198).
-/

namespace Sys2Proof.Machine

open State

/-! ### Parameters (R190, R193) -/

/-- Settles O30: bit by bit for the polynomial, and by running the nine bytes for the check value. -/
theorem crcParametersAndCheckValue : Obligations.CrcParametersAndCheckValue := by
  constructor
  · decide
  · decide +kernel

/-! ### Linearity (R195 (b)) -/

/-- A word brought into both sides cancels. -/
theorem xor_xor_xor_cancel (a b k : Word) : (a ^^^ k) ^^^ (b ^^^ k) = a ^^^ b := by
  calc (a ^^^ k) ^^^ (b ^^^ k)
    _ = (a ^^^ b) ^^^ (k ^^^ k) := by ac_rfl
    _ = a ^^^ b := by rw [BitVec.xor_self, BitVec.xor_zero]

/-- One conditional shift is linear: the polynomial comes in where just one of the two shifts brings it in, and cancels where
both do. -/
theorem crcBit_xor (c d : Word) : crcBit (c ^^^ d) = crcBit c ^^^ crcBit d := by
  unfold crcBit
  rw [BitVec.getLsbD_xor, BitVec.ushiftRight_xor_distrib]
  cases c.getLsbD 0 <;> cases d.getLsbD 0
  case true.true => exact (xor_xor_xor_cancel ..).symm
  case false.false => rfl
  case false.true => exact BitVec.xor_assoc ..
  case true.false =>
    show (c >>> 1 ^^^ d >>> 1) ^^^ polyReflected = (c >>> 1 ^^^ polyReflected) ^^^ d >>> 1
    ac_rfl

theorem crcBits_xor (n : Nat) (c d : Word) : crcBits n (c ^^^ d) = crcBits n c ^^^ crcBits n d := by
  induction n generalizing c d with
  | zero => rfl
  | succ n ih => rw [crcBits, crcBit_xor, ih, crcBits, crcBits]

theorem crcByte_xor (c d : Word) (x y : Byte) : crcByte (c ^^^ d) (x ^^^ y) = crcByte c x ^^^ crcByte d y := by
  unfold crcByte
  rw [← crcBits_xor, BitVec.setWidth_xor]
  congr 1
  ac_rfl

theorem crcUpdate_xor (c d : Word) {x y : List Byte} (h : x.length = y.length) :
    crcUpdate (c ^^^ d) (List.zipWith (· ^^^ ·) x y) = crcUpdate c x ^^^ crcUpdate d y := by
  induction x generalizing c d y with
  | nil =>
    obtain rfl := List.length_eq_zero_iff.1 h.symm
    rfl
  | cons a x ih =>
    cases y with
    | nil => cases h
    | cons b y =>
      rw [List.zipWith_cons_cons, crcUpdate, crcByte_xor, ih _ _ (Nat.succ.inj h), crcUpdate, crcUpdate]

/-- Settles O33: the final complements cancel, and so do the initial values in the linear update. -/
theorem crcIsLinear : Obligations.CrcIsLinear := by
  intro x y h
  calc crc32 x ^^^ crc32 y
    _ = crcUpdate 0xFFFFFFFF#32 x ^^^ crcUpdate 0xFFFFFFFF#32 y := xor_xor_xor_cancel ..
    _ = crcUpdate 0 (List.zipWith (· ^^^ ·) x y) := (crcUpdate_xor _ _ h).symm

/-! ### The table form of the byte step (R194) -/

/-- While no 1 bit is shifted out, the polynomial does not come in. -/
theorem crcBits_of_low_zero {n : Nat} {c : Word} (h : ∀ i < n, c.getLsbD i = false) : crcBits n c = c >>> n := by
  induction n generalizing c with
  | zero => rfl
  | succ n ih =>
    have hbit : crcBit c = c >>> 1 := if_neg (Bool.eq_false_iff.1 (h 0 n.succ_pos))
    have htail (i : Nat) (hi : i < n) : (c >>> 1).getLsbD i = false := by
      rw [BitVec.getLsbD_ushiftRight, Nat.add_comm]
      exact h (i + 1) (Nat.succ_lt_succ hi)
    rw [crcBits, hbit, ih htail, ← BitVec.shiftRight_add, Nat.add_comm]

theorem crcBits_ushiftRight_shiftLeft (n : Nat) (c : Word) : crcBits n (c >>> n <<< n) = c >>> n := by
  rw [crcBits_of_low_zero fun i hi => by simp [hi]]
  ext i
  simpa using BitVec.lt_of_getLsbD

/-- A word is its bits from 8 on and its low byte. -/
theorem eq_upper_xor_lowByte (c : Word) : c = (c >>> 8 <<< 8) ^^^ (c.setWidth 8).setWidth 32 := by
  ext i hi
  by_cases h : i < 8
  · simp [h, BitVec.getLsbD_eq_getElem hi]
  · have hsub : 8 + (i - 8) = i := by omega
    simp [h, hsub, BitVec.getLsbD_eq_getElem hi]

/-- An entry of the table is eight shifts of its index (R194). -/
theorem crcByte_zero (b : Byte) : crcByte 0 b = crcBits 8 (b.setWidth 32) :=
  congrArg (crcBits 8) BitVec.zero_xor

/-- Eight shifts move the upper bits down and look the low byte up in the table. -/
theorem crcBits_eight (c : Word) : crcBits 8 c = (c >>> 8) ^^^ crcByte 0 (c.setWidth 8) := by
  calc crcBits 8 c
    _ = crcBits 8 ((c >>> 8 <<< 8) ^^^ (c.setWidth 8).setWidth 32) := by rw [← eq_upper_xor_lowByte]
    _ = (c >>> 8) ^^^ crcByte 0 (c.setWidth 8) := by rw [crcBits_xor, crcBits_ushiftRight_shiftLeft, crcByte_zero]

/-- A byte has no bits above its own eight. -/
theorem ushiftRight_eight_xor_byte (c : Word) (b : Byte) : (c ^^^ b.setWidth 32) >>> 8 = c >>> 8 := by
  ext i
  simp

/-- Settles O31: the byte step is eight shifts of the register with the byte brought in; the entries are computed. -/
theorem crcByteHasItsTableForm : Obligations.CrcByteHasItsTableForm := by
  refine ⟨fun c b => ?form, ?entries⟩
  case form =>
    have hindex (v : Word) : (v &&& 0xFF#32).setWidth 8 = v.setWidth 8 := by
      rw [BitVec.setWidth_and]
      exact BitVec.and_allOnes
    rw [hindex, ← ushiftRight_eight_xor_byte c b]
    exact crcBits_eight _
  case entries => decide

/-! ### Composition and single-byte errors (R195 (a), (c), (d)) -/

/-- Settles O32: the update is a fold over the bytes, and the initial value is complemented back by nothing. -/
theorem crcUpdateComposes : Obligations.CrcUpdateComposes := ⟨crcUpdate_append, rfl⟩

/-- Settles O34: the byte step is injective in the byte and in the register. -/
theorem crcDetectsEverySingleByteError : Obligations.CrcDetectsEverySingleByteError :=
  fun pre post _ _ h => crc32_ne_of_byte_ne pre post h

/-! ### CRC_INIT and CRC_FEED (R196 to R198) -/

/-- Settles O36: CRC_INIT writes the accumulator and ends as every successful command. -/
theorem crcInitLoadsTheInitialValue : Obligations.CrcInitLoadsTheInitialValue := fun _ => rfl

theorem execCrcFeed_of_inLen_le {s : State} (h : s.inLen.toNat ≤ s.cfg.inCap) :
    execCrcFeed s = .next { s with crcAcc := crcUpdate s.crcAcc s.operand, err := 0 } :=
  memRead_inBuf (by omega) _

theorem operand_of_inLen_eq_zero {s : State} (h : s.inLen = 0) : s.operand = [] :=
  List.eq_nil_of_length_eq_zero (by rw [length_operand, h]; rfl)

/-- Settles O37: one feed is one update over the operand, and updates compose. -/
theorem crcFeedAdvancesTheAccumulator : Obligations.CrcFeedAdvancesTheAccumulator := by
  refine ⟨fun s hle => ⟨execCrcFeed_of_inLen_le hle, fun h0 => ?empty⟩, fun s t u v w hs hut hu hws hop hle => ?compose⟩
  case empty =>
    have h := execCrcFeed_of_inLen_le hle
    rw [operand_of_inLen_eq_zero h0] at h
    exact h
  case compose =>
    obtain ⟨-, rfl⟩ := execCrcFeed_next hs
    obtain ⟨-, rfl⟩ := execCrcFeed_next hu
    refine ⟨_, execCrcFeed_of_inLen_le hle, ?_⟩
    calc crcUpdate w.crcAcc w.operand
      _ = crcUpdate (crcUpdate s.crcAcc s.operand) u.operand := by rw [hws, hop, crcUpdate_append]
      _ = crcUpdate u.crcAcc u.operand := congrArg (crcUpdate · u.operand) hut.symm

/-- A successful CHUNK_NEW stores the checksum of the tag and the payload it leaves (R141). -/
theorem ccrc_of_execChunkNew {s t : State} (hwf : s.cpay.wf) (h : execChunkNew s = .next t) (h0 : t.err = 0) :
    t.ccrc = crc32 (tagBytes t.tag ++ t.payload) := by
  rcases execChunkNew_next h with ⟨-, rfl⟩ | ⟨-, -, rfl⟩
  · exact absurd h0 (fail_err_ne_zero s _)
  · rw [payload, Memory.readBytes_writeBytes_of_length hwf 0 (Memory.length_readBytes ..)]

/-- A successful DECODE stores a checksum that is the one of the tag and the payload it leaves (R142). -/
theorem ccrc_of_execDecode {s t : State} (hwf : s.cpay.wf) (h : execDecode s = .next t) (h0 : t.err = 0) :
    t.ccrc = crc32 (tagBytes t.tag ++ t.payload) := by
  obtain ⟨p, hheld, -, -, ht⟩ := holdsChunk_of_execDecode h h0
  have hp : t.payload = p := by
    rw [ht]
    exact payload_takeChunk hwf _ _ hheld.length_eq
  rw [hp, hheld.sum_eq]

/-- Settles O38: CRC_OUT after the two commands is crc32 of the operand, and CCRC is crc32 of the same bytes. -/
theorem streamingCrcAgreesWithTheChunk : Obligations.StreamingCrcAgreesWithTheChunk := by
  intro c s t u hc h h0 hwf hop hle
  have hccrc : t.ccrc = crc32 (tagBytes t.tag ++ t.payload) := by
    rcases hc with rfl | rfl
    · exact ccrc_of_execChunkNew hwf h h0
    · exact ccrc_of_execDecode hwf h h0
  have hfeed := execCrcFeed_of_inLen_le (s := { u with crcAcc := 0xFFFFFFFF#32, err := 0 }) hle
  refine ⟨_, _, crcInitLoadsTheInitialValue u, BitVec.xor_self, hfeed, ?_⟩
  rw [hccrc, ← hop]
  rfl

end Sys2Proof.Machine

/-!
PROOFS. The host port family (spec/44_host_port.md): reads and writes of the register map (R221, R222), of a buffer byte
(R223 to R225, R227), and the two writes that are always refused (R226, R228).
-/

namespace Sys2Proof.Machine

open State

/-! ### Registers (R221, R222) -/

/-! An access to an offset that names no register is a transaction the port refuses (R251). -/

theorem busRefused_regRd_of_regAt_eq_none {a : Word} (c : Config) (h : regAt a = none) :
    busRefused c (.regRd a) = true := by
  simp only [busRefused, h, Option.isNone_none]

theorem busRefused_regWr_of_regAt_eq_none {a v : Word} (c : Config) (h : regAt a = none) :
    busRefused c (.regWr a v) = true := by
  simp only [busRefused, h]

/-- A read of a register's offset adds its value to those read (R21, R221). -/
theorem exec_regRd_of_eq_offset {a : Word} (r : Reg) (s : State) (h : a = r.offset) :
    exec (.regRd a) s = .next { s with reads := s.reads ++ [s.readReg r] } := by
  subst h
  exact exec_regRd_offset r s

/-- Settles O39: an offset that names no register is refused, and each other one is the offset of its register. -/
theorem registerReadAnswersTheRegister : Obligations.RegisterReadAnswersTheRegister := fun s _ =>
  ⟨fun h => exec_of_busRefused (busRefused_regRd_of_regAt_eq_none s.cfg (regAt_eq_none.2 h)),
    exec_regRd_of_eq_offset .cmd s, exec_regRd_of_eq_offset .status s, exec_regRd_of_eq_offset .arg s,
    exec_regRd_of_eq_offset .inLen s, exec_regRd_of_eq_offset .tag s, exec_regRd_of_eq_offset .props s,
    exec_regRd_of_eq_offset .clen s, exec_regRd_of_eq_offset .ccrc s, exec_regRd_of_eq_offset .outLen s,
    exec_regRd_of_eq_offset .crcAcc s, exec_regRd_of_eq_offset .crcOut s, exec_regRd_of_eq_offset .id s⟩

/-- A write to STATUS clears BUSERR when bit 16 of the datum is 1 (R222). -/
theorem exec_regWr_status (v : Word) (s : State) :
    exec (.regWr 0x04#32 v) s = .next (if v.getLsbD 16 then { s with busErr := false } else s) := rfl

/-- Settles O40: refused offsets, read-only registers and an IN_LEN above the capacity are refused transactions, a word for
CMD is decoded, and the rest store their datum. -/
theorem registerWriteFollowsTheMap : Obligations.RegisterWriteFollowsTheMap := by
  intro s a v
  refine ⟨?noRegister, ?legalWord, ?illegalWord, ?clear, ?keep, ?arg, ?inLenAbove, ?inLen, ?crcAcc, ?readOnly⟩
  case noRegister =>
    intro h
    exact exec_of_busRefused (busRefused_regWr_of_regAt_eq_none s.cfg (regAt_eq_none.2 h))
  case legalWord =>
    rintro rfl c h
    exact exec_regWr_cmd_of_ok h s
  case illegalWord =>
    rintro rfl e h
    exact exec_regWr_cmd_of_error h s
  case clear =>
    rintro rfl h
    exact (exec_regWr_status v s).trans (congrArg _ (if_pos h))
  case keep =>
    rintro rfl h
    exact (exec_regWr_status v s).trans (congrArg _ (if_neg (ne_true_of_eq_false h)))
  case inLenAbove =>
    rintro rfl h
    exact (execRegWr_inLen v s).trans (congrArg _ (if_pos h))
  case inLen =>
    rintro rfl h
    exact (execRegWr_inLen v s).trans (congrArg _ (if_neg (Nat.not_lt.2 h)))
  case arg | crcAcc =>
    rintro rfl
    rfl
  case readOnly =>
    rintro (rfl | rfl | rfl | rfl | rfl | rfl | rfl) <;> exact exec_of_busRefused rfl

/-! ### Buffers (R223 to R228) -/

/-- Below the capacity a read answers the byte, zero-extended to a word (R97). -/
theorem hostReadByte_of_lt {s : State} {b : Buf} {a : Word} (h : a.toNat < s.cap b) :
    s.hostReadByte b a = s.answer (((s.buf b).read a.toNat).setWidth 32) := if_neg (Nat.not_le.2 h)

/-- Settles O41: the three reads are the one host read of a byte, each of its own buffer. -/
theorem bufferReadAnswersTheByte : Obligations.BufferReadAnswersTheByte := by
  intro s a
  have below (b : Buf) (h : a.toNat < s.cap b) :
      ∃ v : Word, (.next (s.hostReadByte b a) : StepResult State) = .next { s with reads := s.reads ++ [v] } ∧
        v.toNat = ((s.buf b).read a.toNat).toNat :=
    ⟨_, congrArg _ (hostReadByte_of_lt h), BitVec.toNat_setWidth_of_le (by decide)⟩
  have above (b : Buf) (h : s.cap b ≤ a.toNat) : (.next (s.hostReadByte b a) : StepResult State) = .next s.refuseRead :=
    congrArg _ (hostReadByte_of_refused h)
  exact ⟨below .inBuf, above .inBuf, below .cpay, above .cpay, below .out, above .out⟩

/-- Settles O42: IN_WR is refused, or it is one write of the canonical buffer, read back byte by byte. -/
theorem inputWriteStoresOneByte : Obligations.InputWriteStoresOneByte := by
  intro s a v hwf
  rcases execInWr_cases a v s with ⟨hcap, e⟩ | ⟨hcap, e⟩
  · exact ⟨fun h => absurd h (Nat.not_lt.2 hcap), fun _ => e⟩
  · exact ⟨fun _ => ⟨_, e, fun k => Memory.read_write hwf a.toNat k _, rfl⟩, fun h => absurd hcap (Nat.not_lt.2 h)⟩

/-- Settles O43: both are among the transactions the port refuses, whatever their operands. -/
theorem payloadAndOutputWritesAreRefused : Obligations.PayloadAndOutputWritesAreRefused :=
  fun _ _ _ => ⟨exec_of_busRefused rfl, exec_of_busRefused rfl⟩

end Sys2Proof.Machine

/-!
PROOFS. The exceptions family (spec/60_exceptions.md): BUSERR after one transaction (R251), and after a run of transactions
that write no command (R293).
-/

namespace Sys2Proof.Machine

open State

/-! ### BUSERR after one transaction (R30, R251) -/

/-- The instruction clears BUSERR: a write of STATUS with bit 16 = 1 (R30). -/
def ClearsBusErr (i : Instr) : Prop := ∃ v : Word, i = .regWr 0x04#32 v ∧ v.getLsbD 16 = true

theorem busErr_of_busRefused {i : Instr} {s t : State} (hb : busRefused s.cfg i = true) (h : exec i s = .next t) :
    t.busErr = true := by
  cases (exec_of_busRefused hb).symm.trans h
  cases i.isRead <;> rfl

theorem busErr_of_clearsBusErr {i : Instr} {s t : State} (hi : ClearsBusErr i) (h : exec i s = .next t) :
    t.busErr = false := by
  obtain ⟨v, rfl, hv⟩ := hi
  rw [exec_regWr_status, if_pos hv] at h
  cases h
  rfl

/-- No write of STATUS is refused. -/
theorem busRefused_of_clearsBusErr {i : Instr} (c : Config) (hi : ClearsBusErr i) : busRefused c i = false := by
  obtain ⟨v, rfl, -⟩ := hi
  rfl

theorem busErr_of_acceptedRead {i : Instr} {s t : State} (hi : i.isRead = true) (hb : busRefused s.cfg i = false)
    (h : exec i s = .next t) : t.busErr = s.busErr := by
  obtain ⟨v, hv⟩ := exec_of_acceptedRead hi hb
  cases (hv s.reads).symm.trans h
  rfl

/-- An accepted REG_WR that writes a register other than CMD and clears no BUSERR keeps it (R222). -/
theorem busErr_of_acceptedRegWr {a v : Word} {s t : State} (ha : a ≠ Reg.offset .cmd) (hi : ¬ ClearsBusErr (.regWr a v))
    (hb : busRefused s.cfg (.regWr a v) = false) (h : execRegWr a v s = .next t) : t.busErr = s.busErr := by
  cases hr : regAt a with
  | none =>
    rw [busRefused_regWr_of_regAt_eq_none s.cfg hr] at hb
    cases hb
  | some r =>
    obtain rfl := regAt_eq_some.1 hr
    cases r
    case cmd => exact absurd rfl ha
    case status =>
      have hv : ¬ v.getLsbD 16 = true := fun hv => hi ⟨v, rfl, hv⟩
      cases ((exec_regWr_status v s).trans (congrArg _ (if_neg hv))).symm.trans h
      rfl
    case inLen =>
      cases ((execRegWr_inLen v s).trans (congrArg _ (if_neg (of_decide_eq_false hb)))).symm.trans h
      rfl
    case arg | crcAcc =>
      cases h
      rfl
    all_goals cases hb

/-- An instruction that is not refused and does not clear BUSERR keeps it. -/
theorem busErr_of_accepted {i : Instr} {s t : State} (hi : ¬ ClearsBusErr i) (hb : busRefused s.cfg i = false)
    (h : exec i s = .next t) : t.busErr = s.busErr := by
  rcases exec_effect h with ⟨-, e, rfl⟩ | ⟨c, -, ⟨⟩⟩ | ⟨hw, -⟩
  · rfl
  · rfl
  · cases i
    case regRd | inRd | cpayRd | outRd => exact busErr_of_acceptedRead rfl hb h
    case regWr a v =>
      have ha : a ≠ Reg.offset .cmd := fun ha => by simp [runsCommandWord_regWr.2 ha] at hw
      exact busErr_of_acceptedRegWr ha hi hb h
    case inWr a v =>
      rcases execInWr_cases a v s with ⟨hle, -⟩ | ⟨-, e⟩
      · exact absurd hle (of_decide_eq_false hb)
      · cases e.symm.trans h
        rfl
    case cpayWr | outWr => cases hb
    all_goals cases hw

/-- Short of a clearing write, BUSERR is 1 after an instruction exactly when it was 1 or the instruction was refused. -/
theorem busErr_iff_of_not_clearsBusErr {i : Instr} {s t : State} (hi : ¬ ClearsBusErr i) (h : exec i s = .next t) :
    t.busErr = true ↔ s.busErr = true ∨ busRefused s.cfg i = true := by
  cases hb : busRefused s.cfg i with
  | true => simp [busErr_of_busRefused hb h]
  | false => simp [busErr_of_accepted hi hb h]

/-- Settles O44: a refusal sets BUSERR, an accepted clearing write clears it, and all else keeps it. -/
theorem buserrRisesExactlyOnRefusal : Obligations.BuserrRisesExactlyOnRefusal := by
  intro i s t h
  change t.busErr = true ↔ busRefused s.cfg i = true ∨ (s.busErr = true ∧ ¬ ClearsBusErr i)
  by_cases hi : ClearsBusErr i
  · simp [busErr_of_clearsBusErr hi h, busRefused_of_clearsBusErr s.cfg hi, hi]
  · simp [busErr_iff_of_not_clearsBusErr hi h, hi, or_comm]

/-! ### Runs without commands (R293) -/

/-- A run that begins with a transaction that writes no command is that transaction and the run of the rest, with the same
reports. -/
theorem runEvents_bus_cons {b : HostBus} {rest : List HostEvent} {s : State} {r : Report}
    (hb : (decodeRecord b).isCmdWrite = false) (h : runEvents (.bus b :: rest) s = some r) :
    ∃ t, exec (decodeRecord b) { s with host := [] } = .next t ∧ runEvents rest t = some r := by
  have htake : s.take (.bus b) = exec (decodeRecord b) { s with host := [] } := step_bus rfl
  rw [← htake]
  simp only [runEvents, HostEvent.instr, Option.map_some, hb] at h
  cases ht : s.take (.bus b) with
  | fault | refused => simp [ht] at h
  | next t =>
    refine ⟨t, rfl, ?_⟩
    cases hr : runEvents rest t with
    | none => simp [ht, hr] at h
    | some r' => simpa [ht, hr] using h

/-- A run of transactions that write no command and do not clear BUSERR reports no code, and ends with BUSERR = 1 exactly
when it began so or one of them was refused: the configuration, which says what is refused, is the same throughout. -/
theorem runEvents_without_commands {p : List HostBus} {s : State} {r : Report}
    (hp : ∀ b ∈ p, (decodeRecord b).isCmdWrite = false ∧ ¬ ClearsBusErr (decodeRecord b))
    (h : runEvents (p.map HostEvent.bus) s = some r) :
    r.errs = [] ∧ (r.final.busErr = true ↔ s.busErr = true ∨ ∃ b ∈ p, busRefused s.cfg (decodeRecord b) = true) := by
  induction p generalizing s with
  | nil =>
    cases h
    simp
  | cons b p ih =>
    obtain ⟨⟨hcmd, hclear⟩, hp⟩ := List.forall_mem_cons.1 hp
    obtain ⟨t, ht, hrest⟩ := runEvents_bus_cons hcmd h
    obtain ⟨-, -, hcfg, -⟩ := onlyTheHostWritesTheInput _ _ _ ht
    obtain ⟨herrs, hfinal⟩ := ih hp hrest
    refine ⟨herrs, hfinal.trans ?_⟩
    rw [busErr_iff_of_not_clearsBusErr hclear ht, hcfg, List.exists_mem_cons_iff, or_assoc]

/-- Settles O56: without a reported code a run went wrong exactly when BUSERR rose in it. -/
theorem runWithoutCommandsGoesWrongExactlyByRefusal : Obligations.RunWithoutCommandsGoesWrongExactlyByRefusal := by
  intro s p r hs hp h
  obtain ⟨herrs, hfinal⟩ := runEvents_without_commands hp h
  rw [hs, or_iff_right Bool.false_ne_true] at hfinal
  rw [← hfinal]
  simp [wentWrong, unexpectedErr, herrs, hs]

end Sys2Proof.Machine

/-!
PROOFS. The reset family (spec/70_reset_and_hazards.md): the registers (R280) and the buffers (R281, R282) after a reset event.
-/

namespace Sys2Proof.Machine

open State

/-! ### What the registers read after a reset (R280) -/

/-- Every field of STATUS is 0 after a reset, so the word is. -/
@[simp] theorem status_takeReset (s : State) (d : ResetDraw) : (s.takeReset d).status = 0 := by
  simp [status]

/-- No tag is valid after a reset (R35). -/
@[simp] theorem props_takeReset (s : State) (d : ResetDraw) : (s.takeReset d).props = 0 :=
  props_of_tagValid_eq_false (takeReset_tagValid s d)

/-- CRC_ACC resets to the word that CRC_OUT inverts (R40). -/
@[simp] theorem crcOut_takeReset (s : State) (d : ResetDraw) : (s.takeReset d).crcOut = 0 :=
  BitVec.xor_self

/-- Settles O9: the step is the reset transition, which writes every register. -/
theorem resetWritesEveryRegister : Obligations.ResetWritesEveryRegister := by
  intro s d rest h
  refine ⟨_, step_reset h, ?_⟩
  simp [readReg, idWord]

/-! ### What the buffers hold after a reset (R281, R282) -/

/-- A draw as long as the buffer is not cut, so the buffer reads as the draw. -/
theorem Memory.readBytes_ofDraw_of_length {cap : Nat} {draw : List Byte} (h : draw.length = cap) :
    (ofDraw cap draw).readBytes 0 cap = draw := by
  rw [ofDraw, List.take_of_length_le h.le]
  exact readBytes_writeBytes_of_length wf_nil 0 h

/-- Settles O10: the step is the reset transition, which fills each buffer from the draw. -/
theorem resetLeavesTheDrawInTheBuffers : Obligations.ResetLeavesTheDrawInTheBuffers := by
  intro s d rest h hin hcpay hout
  exact ⟨_, step_reset h, Memory.readBytes_ofDraw_of_length hin, Memory.readBytes_ofDraw_of_length hcpay,
    Memory.readBytes_ofDraw_of_length hout, rfl, rfl, rfl⟩

end Sys2Proof.Machine
